-- ==== Sys2Proof/Word.lean ====
section
/-! DEFINITION. The word types of the block (00_scope.md R9, R11): every value is unsigned, 32-bit words and 8-bit bytes. -/

namespace Sys2Proof

/-- A 32-bit value: the CRC register, the polynomial, an operand, a result, a command word (R9). -/
abbrev Word := BitVec 32

/-- One byte of the input buffer (R9, R28). -/
abbrev Byte := BitVec 8

end Sys2Proof
end

