-- ==== Sys2Proof/Config.lean ====
section
/-! DEFINITION. The parameters a model of the block takes (00_scope.md R9, R10). There is one, and the spec decides it.
No free value exists: 93_implementation_defined.md says that no behaviour of the block is treated as any value. -/

namespace Sys2Proof

/-- `WORD_TAILB_OFFSET`: which byte tail case B of CRCW reads, `IN[2F + offset]` (42_crc_word_serial.md R85, R88).
The spec decides 0 and names 1 without adopting it (92_eei_decisions.md D11). UNVERIFIED, unsafe: log entry 7. -/
def Config.wordTailBOffset : Nat := 0

end Sys2Proof
end

