-- ==== Sys2Proof/Syntax.lean ====
section
/-! DEFINITION. The seven commands of the block, one constructor per row of spec/opcode_table.json (30_encoding.md R49).
A field of the command word stays the bits it is, at its own width, so that every value the word can spell is an
instruction: an illegal width or chunk count decodes, and faults when it is executed (R46, R47, R50). -/

namespace Sys2Proof

/-- A command (R49). `w` is the field W, CMD[9:4]; `k` is the field K, CMD[13:10] (R44). -/
inductive Instr where
  /-- GMPY, the galois multiply (40_galois_multiply.md R58). -/
  | gmpy
  /-- CRCB, the byte-serial CRC of output width `w` (41_crc_byte_serial.md R65). -/
  | crcb (w : BitVec 6)
  /-- CRCW, the word-serial CRC of output width `w` (42_crc_word_serial.md R78). -/
  | crcw (w : BitVec 6)
  /-- STEP, one transition that consumes `k` bits (41_crc_byte_serial.md R67). -/
  | step (k : BitVec 4)
  /-- STEP16, one full-word transition (42_crc_word_serial.md R81). -/
  | step16
  /-- ALIGN, the top `k` bits of a byte, right-aligned (43_bit_alignment_helpers.md R90). -/
  | align (k : BitVec 4)
  /-- OSHIFT, the terminal shift to `w` bits (43_bit_alignment_helpers.md R91). -/
  | oshift (w : BitVec 6)
  deriving DecidableEq, Repr

end Sys2Proof
end

