-- ==== Sys2Proof/WellFormed.lean ====
section
/-! DEFINITION. Which commands are well-formed: the field W from 1 to 32 (30_encoding.md R46), the field K from 1 to 8
(R47). A command that is not decodes all the same, and its execution faults (60_exceptions.md R97): the meanings make
their own checks (Machine/Flags.lean). Log entry 16. -/

namespace Sys2Proof

/-- Every field the command uses has a legal value (R46, R47). -/
def Instr.wellFormed : Instr → Bool
  | .gmpy => true
  | .crcb w => decide (1 ≤ w.toNat ∧ w.toNat ≤ 32)
  | .crcw w => decide (1 ≤ w.toNat ∧ w.toNat ≤ 32)
  | .step k => decide (1 ≤ k.toNat ∧ k.toNat ≤ 8)
  | .step16 => true
  | .align k => decide (1 ≤ k.toNat ∧ k.toNat ≤ 8)
  | .oshift w => decide (1 ≤ w.toNat ∧ w.toNat ≤ 32)

end Sys2Proof
end

