-- ==== Sys2Proof/Decode.lean ====
section
/-! DEFINITION. Decoding the command word CMD, total over all 2^32 words, and the encoder (30_encoding.md R44 to R53).
The command word arrives on an input and is never read from memory (20_memory.md R41), so it has no byte order. -/

namespace Sys2Proof

/-- What the decoder reads from a command word: a command, or one of the two rejections (R52, R53). -/
inductive Decoded where
  /-- The word is the command `i`. -/
  | instr (i : Instr)
  /-- `ILLEGAL_OP`: OP is 7 to 15. -/
  | illegalOp
  /-- `RESERVED_FIELD`: a reserved bit, or a field the command does not use, is non-zero. -/
  | reservedField
  deriving DecidableEq, Repr

/-- The field OP, CMD[3:0] (R45). -/
def opField (cmd : Word) : BitVec 4 := cmd.extractLsb' 0 4

/-- The field W, CMD[9:4] (R46). -/
def widthField (cmd : Word) : BitVec 6 := cmd.extractLsb' 4 6

/-- The field K, CMD[13:10] (R47). -/
def chunkField (cmd : Word) : BitVec 4 := cmd.extractLsb' 10 4

/-- The opcode map (R49) with the masks of R50: the row of operation `op` is its mask and the command that the fields
`w` and `k` give. Operations 7 to 15 have no row (R53). -/
def opcodeRow (op : BitVec 4) (w : BitVec 6) (k : BitVec 4) : Option (Word × Instr) :=
  match op.toNat with
  | 0 => some (0xFFFFFFFF#32, .gmpy)
  | 1 => some (0xFFFFFC0F#32, .crcb w)
  | 2 => some (0xFFFFFC0F#32, .crcw w)
  | 3 => some (0xFFFFC3FF#32, .step k)
  | 4 => some (0xFFFFFFFF#32, .step16)
  | 5 => some (0xFFFFC3FF#32, .align k)
  | 6 => some (0xFFFFFC0F#32, .oshift w)
  | _ => none

/-- The decoder of R52: the operation first, then the mask of its row. -/
def decode (cmd : Word) : Decoded :=
  match opcodeRow (opField cmd) (widthField cmd) (chunkField cmd) with
  | none => .illegalOp
  | some (mask, i) => if cmd &&& mask = (opField cmd).setWidth 32 then .instr i else .reservedField

/-- The command word of a command (R44, R49; the CMD column of R54). -/
def encode : Instr → Word
  | .gmpy => 0x0#32
  | .crcb w => 0x1#32 ||| (w.setWidth 32 <<< 4)
  | .crcw w => 0x2#32 ||| (w.setWidth 32 <<< 4)
  | .step k => 0x3#32 ||| (k.setWidth 32 <<< 10)
  | .step16 => 0x4#32
  | .align k => 0x5#32 ||| (k.setWidth 32 <<< 10)
  | .oshift w => 0x6#32 ||| (w.setWidth 32 <<< 4)

/-- The host's question about a row of spec/opcode_table.json: the command read from the word whose bits are `w`. Every
row has 32 bits, the whole command word; a longer row or a number beyond 32 bits is no command word. -/
def decodeTableWord (nbits w : Nat) : Option Instr :=
  if nbits ≤ 32 ∧ w < 2 ^ 32 then
    match decode (BitVec.ofNat 32 w) with
    | .instr i => some i
    | .illegalOp => none
    | .reservedField => none
  else none

end Sys2Proof
end

