-- ==== Sys2Proof/Machine/State.lean ====
section
/-! DEFINITION. The state of the block as plain data: the inputs of the transaction, the working values of a CRC command,
and the outcome (10_state.md R15 to R27). The block keeps nothing from one transaction to the next (R15): what stands
here between two steps is its interface. -/

namespace Sys2Proof.Machine

/-- The input buffer `IN` with its length `LEN` (20_memory.md R28): `cells` lists the non-zero bytes by rising index, and
an index below `len` that is not listed holds the byte 0 (DESIGN CHOICE, unsafe: log entry 5). -/
structure Memory where
  /-- `LEN`, a natural number (R28). -/
  len : Nat
  /-- The listed bytes, in the canonical form that `Memory.wf` states. -/
  cells : List Host.Cell
  deriving DecidableEq, Repr

/-- Indices at or above `lo` and below `len`, strictly rising, none with the byte an unlisted index holds. -/
def cellsWf (len : Nat) : Nat → List Host.Cell → Bool
  | _, [] => true
  | lo, (i, v) :: rest => decide (lo ≤ i) && decide (i < len) && (v != 0#8) && cellsWf len (i + 1) rest

/-- The canonical form of a buffer: equal buffers are equal data. -/
def Memory.wf (m : Memory) : Bool := cellsWf m.len 0 m.cells

/-- The fault codes of 60_exceptions.md R95, by name. -/
inductive FaultCode where
  /-- CMD[3:0] is 7 to 15. -/
  | illegalOp
  /-- A reserved bit, or a field the command does not use, is non-zero. -/
  | reservedField
  /-- W is 0 or above 32. -/
  | badWidth
  /-- K is 0 or above 8. -/
  | badChunk
  /-- N > 8 * LEN. -/
  | badBitCount
  deriving DecidableEq, Repr

/-- The outcome of a transaction: exactly one of a result and a fault, and no result value on a fault (10_state.md R17). -/
inductive Response where
  /-- `R`, with FAULT = 0. -/
  | result (r : Word)
  /-- FAULT is the code, and there is no `R`. -/
  | fault (code : FaultCode)
  deriving DecidableEq, Repr

/-- The working values of a CRCB or CRCW command (10_state.md R20 to R22). -/
structure Engine where
  /-- The CRC register (R20). -/
  crc : Word
  /-- The byte cursor: the index of the next input byte (R22). -/
  pos : Nat
  /-- `scale8`, which exists in a CRCW command only (R21). -/
  scale8 : Option Word
  deriving DecidableEq, Repr

/-- The state: the input lines of R16, the working values while they exist, and the outcome (R27). -/
structure State where
  /-- A transaction has been issued and has no outcome yet (R18, R27). -/
  inFlight : Bool
  /-- `CMD`, the command word (R16). -/
  cmd : Word
  /-- Operand `A` (R16). -/
  a : Word
  /-- Operand `B` (R16). -/
  b : Word
  /-- Operand `C` (R16). -/
  c : Word
  /-- `N`, the bit count (R16). -/
  n : Word
  /-- `IN` and `LEN` (R16, R28). -/
  buf : Memory
  /-- The working values; `none` is R27's "does not exist outside a command" (log entry 6). -/
  engine : Option Engine
  /-- The outcome of the last transaction; `none` where no outcome can be read (R17, R27). -/
  response : Option Response
  deriving DecidableEq, Repr

/-- Where a step of the model stops. No run of the block reaches one of these: a fault of the spec (R95) is an outcome,
after which the block goes on (R101), and so a next state. Log entries 2 and 9. -/
inductive Fault where
  /-- Raised by a byte read at an index of LEN or more (R29, R88). Safe: the block never reads one. -/
  | readBeyondBuffer (index : Nat)
  /-- Raised by an engine operation where the working value it needs does not exist (R27). Safe: no command reaches it. -/
  | workingValueAbsent
  deriving DecidableEq, Repr

/-- Why an instruction has no meaning. -/
inductive Refusal where
  /-- Raised by a dispatch arm whose instruction has no meaning yet; no arm is left so. Safe. -/
  | notModelled (mnemonic : String)
  deriving DecidableEq, Repr

/-- What a meaning, an engine operation or a step answers. -/
abbrev Result := Host.Outcome State Fault Refusal

/-- The block right after reset (R27, R109): no transaction in flight, no working value, no outcome. The spec gives the
input lines no value, since the host drives them: 0 and an empty buffer (DESIGN CHOICE, unsafe: log entry 3). -/
def State.reset : State where
  inFlight := false
  cmd := 0#32
  a := 0#32
  b := 0#32
  c := 0#32
  n := 0#32
  buf := { len := 0, cells := [] }
  engine := none
  response := none

end Sys2Proof.Machine
end

