-- ==== Sys2Proof/Machine/Flags.lean ====
section
/-! DEFINITION. The block has no flags (10_state.md R23). Its only status is the FAULT output: its codes
(60_exceptions.md R95) and the precondition checks that set it (R97). -/

namespace Sys2Proof.Machine

/-- The number of a fault code (R95). -/
def FaultCode.number : FaultCode → BitVec 3
  | .illegalOp => 1#3
  | .reservedField => 2#3
  | .badWidth => 3#3
  | .badChunk => 4#3
  | .badBitCount => 5#3

/-- The 3-bit FAULT output of an outcome: 0 with a result (10_state.md R17, 60_exceptions.md R95). -/
def faultOutput : Response → BitVec 3
  | .result _ => 0#3
  | .fault code => code.number

/-- The output width is legal: 1 to 32 (R97, 30_encoding.md R46). -/
def widthOk (w : BitVec 6) : Bool := decide (1 ≤ w.toNat ∧ w.toNat ≤ 32)

/-- The chunk bit count is legal: 1 to 8 (R97, 30_encoding.md R47). -/
def chunkOk (k : BitVec 4) : Bool := decide (1 ≤ k.toNat ∧ k.toNat ≤ 8)

/-- The buffer holds the bits asked for: N ≤ 8 * LEN, exactly (R97, 92_eei_decisions.md D20). -/
def bitCountOk (s : State) : Bool := decide (s.n.toNat ≤ 8 * s.buf.len)

end Sys2Proof.Machine
end

