-- ==== Sys2Proof/Machine/Operands.lean ====
section
/-! DEFINITION. The arithmetic every command is built from: the galois multiply, the fold, the transitions, the alignment
helpers, the split of the bit count, and the slices of the operands (30_encoding.md R51, 40_galois_multiply.md,
43_bit_alignment_helpers.md). Pure functions of their operands. -/

namespace Sys2Proof.Machine

/-- The accumulator of R58 after the bits 0 to `i - 1` of the multiplier. -/
def gmpyUpTo (a b : Word) : Nat → Word
  | 0 => 0#32
  | i + 1 => if b.getLsbD i then gmpyUpTo a b i ^^^ (a <<< i) else gmpyUpTo a b i

/-- GMPY(a, b): the carry-less product truncated to 32 bits, with no reduction (R58, R60). -/
def gmpy (a b : Word) : Word := gmpyUpTo a b 32

/-- The fold by `k` bits: GMPY(crc, 1 << k) (R62, R93). -/
def fold (k : Nat) (crc : Word) : Word := gmpy crc (1#32 <<< k)

/-- One transition that consumes a chunk of `k` bits with the value `v` (41_crc_byte_serial.md R67). -/
def transition (poly v crc : Word) (k : Nat) : Word := gmpy poly v ^^^ fold k crc

/-- One full-word transition on the bytes `b0`, the earlier, and `b1` (42_crc_word_serial.md R81). -/
def wordTransition (poly scale8 crc : Word) (b0 b1 : Byte) : Word :=
  gmpy scale8 (b0.setWidth 32) ^^^ gmpy poly (b1.setWidth 32) ^^^ fold 8 (fold 8 crc)

/-- `scale8` of a polynomial (42_crc_word_serial.md R80). -/
def scaleByEight (poly : Word) : Word := gmpy poly (1#32 <<< 8)

/-- The top `k` bits of a byte, right-aligned and zero-extended (43_bit_alignment_helpers.md R90). -/
def alignByte (k : Nat) (v : Byte) : Word := (v >>> (8 - k)).setWidth 32

/-- The terminal shift to `w` bits, logical (43_bit_alignment_helpers.md R91). -/
def outShift (w : Nat) (x : Word) : Word := x >>> (32 - w)

/-- B[7:0] and B[15:8] (R51): the byte of ALIGN, and the bytes b0 and b1 of STEP16's unit. -/
def lowByte (x : Word) : Byte := x.extractLsb' 0 8

/-- B[15:8] (R51, 42_crc_word_serial.md R81). -/
def highByte (x : Word) : Byte := x.extractLsb' 8 8

/-- `fullBytes = N div 8` (R92). -/
def fullBytes (n : Word) : Nat := n.toNat / 8

/-- `leftoverBits = N mod 8` (R92). -/
def leftoverBits (n : Word) : Nat := n.toNat % 8

/-- `fullWords = N div 16` (R92). -/
def fullWords (n : Word) : Nat := n.toNat / 16

/-- `hasExtraByte`: (N div 8) mod 2 is 1 (R92, 42_crc_word_serial.md R79). -/
def hasExtraByte (n : Word) : Bool := n.toNat / 8 % 2 == 1

end Sys2Proof.Machine
end

