-- ==== Sys2Proof/Machine/Ops.lean ====
section
/-! DEFINITION. The named operations over the state: the buffer, issuing and ending a transaction, taking a fault, and
the steps of the two CRC engines (20_memory.md, 41_crc_byte_serial.md, 42_crc_word_serial.md, 60_exceptions.md). -/

namespace Sys2Proof.Machine

/-- The byte listed at index `i`, or 0. -/
def lookupCell (i : Nat) : List Host.Cell → Byte
  | [] => 0#8
  | (j, v) :: rest => if j = i then v else lookupCell i rest

/-- `IN[i]` (20_memory.md R29): the byte at index `i`; there is none at an index of LEN or more. -/
def Memory.read (m : Memory) (i : Nat) : Option Byte :=
  if i < m.len then some (lookupCell i m.cells) else none

/-- The cell `(i, v)`, listed unless `v` is what an unlisted index holds. -/
def consCell (i : Nat) (v : Byte) (rest : List Host.Cell) : List Host.Cell :=
  if v = 0#8 then rest else (i, v) :: rest

/-- The list with the byte at index `i` replaced by `v`, its order kept. -/
def putCell (i : Nat) (v : Byte) : List Host.Cell → List Host.Cell
  | [] => consCell i v []
  | (j, u) :: rest =>
    if i < j then consCell i v ((j, u) :: rest)
    else if i = j then consCell i v rest
    else (j, u) :: putCell i v rest

/-- The HOST's write of one byte of its buffer (R38, 70_reset_and_hazards.md R112). The block never writes (R35). There
is no byte to write at an index of LEN or more. -/
def Memory.write (m : Memory) (i : Nat) (v : Byte) : Option Memory :=
  if i < m.len then some { m with cells := putCell i v m.cells } else none

/-- The cells of a byte list whose first byte has index `i`. -/
def cellsFrom (i : Nat) : List Byte → List Host.Cell
  | [] => []
  | v :: rest => consCell i v (cellsFrom (i + 1) rest)

/-- The buffer that holds exactly these bytes (the byte list of 30_encoding.md R54; LEN is their number). -/
def Memory.ofBytes (bytes : List Byte) : Memory := { len := bytes.length, cells := cellsFrom 0 bytes }

/-- The host issues the transaction that the inputs present: it is in flight, and no outcome can be read (10_state.md
R16, R18, R27). That an earlier outcome is gone from here on is the model's choice (log entry 14), and so is what becomes
of a transaction in flight (log entry 17). -/
def issue (s : State) : State := { s with inFlight := true, engine := none, response := none }

/-- The transaction ends with this outcome; its working values are discarded (R17, R20 to R22). -/
def respond (o : Response) (s : State) : State :=
  { s with inFlight := false, engine := none, response := some o }

/-- The transaction ends with the result `r` and FAULT = 0 (R17). -/
def deliver (r : Word) (s : State) : Result := .next (respond (.result r) s)

/-- TAKING A FAULT (60_exceptions.md R96, R100): the transaction ends with its code and no result. Nothing is saved, no
mode changes and nothing transfers control, so there is nothing to return from (R101): the next transaction starts from
no state. -/
def raiseFault (code : FaultCode) (s : State) : Result := .next (respond (.fault code) s)

/-- A reset (70_reset_and_hazards.md R109, R110): there is nothing to initialise, and a transaction in flight is abandoned
with no outcome. The input lines are the host's. -/
def resetBlock (s : State) : State := { s with inFlight := false, engine := none, response := none }

/-- Do `f` where `o` gives a next state; stop where it stops. -/
def andThen (o : Result) (f : State → Result) : Result :=
  match o with
  | .next s => f s
  | .fault r => .fault r
  | .refused r => .refused r

/-- What the block does first: nothing where no transaction is in flight, and otherwise it decodes the command word on
its input (30_encoding.md R52, 20_memory.md R41). -/
def fetch (s : State) : Option Decoded := if s.inFlight then some (decode s.cmd) else none

/-- A step where no transaction is in flight: the host issues every command (30_encoding.md R57), so nothing happens.
DESIGN CHOICE, unsafe: log entry 4. -/
def idle (s : State) : Result := .next s

/-- Use the working values; there are none outside a CRCB or CRCW command (R27). -/
def withEngine (s : State) (f : Engine → Result) : Result :=
  match s.engine with
  | some e => f e
  | none => .fault .workingValueAbsent

/-- Use the byte `IN[i]` (20_memory.md R29). -/
def withByte (s : State) (i : Nat) (f : Byte → Result) : Result :=
  match s.buf.read i with
  | some v => f v
  | none => .fault (.readBeyondBuffer i)

/-- Read the byte `skip` places after the cursor, take its top `k` bits, and make the transition of `k` bits on them
(41_crc_byte_serial.md R68 with `k = 8`, R69 below 8). The cursor moves past the byte. -/
def chunkStep (skip k : Nat) (s : State) : Result :=
  withEngine s fun e => withByte s (e.pos + skip) fun v =>
    .next { s with engine := some { e with crc := transition s.a (alignByte k v) e.crc k, pos := e.pos + skip + 1 } }

/-- Read the next two bytes and make the full-word transition on them (42_crc_word_serial.md R82). -/
def wordStep (s : State) : Result :=
  withEngine s fun e => withByte s e.pos fun b0 => withByte s (e.pos + 1) fun b1 =>
    match e.scale8 with
    | some scale8 =>
      .next { s with engine := some { e with crc := wordTransition s.a scale8 e.crc b0 b1, pos := e.pos + 2 } }
    | none => .fault .workingValueAbsent

/-- Do `f` a number of times. -/
def repeatStep (f : State → Result) : Nat → State → Result
  | 0, s => .next s
  | j + 1, s => andThen (f s) (repeatStep f j)

/-- The partial-byte transition, which runs where bits are left over (41_crc_byte_serial.md R69). -/
def partialStep (skip : Nat) (s : State) : Result :=
  if leftoverBits s.n > 0 then chunkStep skip (leftoverBits s.n) s else .next s

/-- The working values at the start of a CRCB command (10_state.md R20, R22). -/
def startByteEngine (s : State) : State :=
  { s with engine := some { crc := s.b, pos := 0, scale8 := none } }

/-- The working values at the start of a CRCW command (10_state.md R20 to R22). -/
def startWordEngine (s : State) : State :=
  { s with engine := some { crc := s.b, pos := 0, scale8 := some (scaleByEight s.a) } }

/-- The byte-serial engine up to its final register (41_crc_byte_serial.md R65). -/
def runByteEngine (s : State) : Result :=
  andThen (repeatStep (chunkStep 0 8) (fullBytes s.n) (startByteEngine s)) (partialStep 0)

/-- The tail of the word-serial engine: case A, the extra byte and then a partial byte, or case B, a partial byte
`tailB` places after the cursor (42_crc_word_serial.md R83 to R85). -/
def wordTail (tailB : Nat) (s : State) : Result :=
  if hasExtraByte s.n then andThen (chunkStep 0 8 s) (partialStep 0) else partialStep tailB s

/-- The word-serial engine up to its final register, with `WORD_TAILB_OFFSET = tailB` (42_crc_word_serial.md R78, R88). -/
def runWordEngine (tailB : Nat) (s : State) : Result :=
  andThen (repeatStep wordStep (fullWords s.n) (startWordEngine s)) (wordTail tailB)

/-- The final step of a CRC command: the register's top `w` bits are the result (41_crc_byte_serial.md R70). -/
def emit (w : BitVec 6) (s : State) : Result :=
  withEngine s fun e => deliver (outShift w.toNat e.crc) s

/-- A CRC command of output width `w`: the checks in the order of 60_exceptions.md R98, before any byte is read, then the
engine, then the final step. -/
def crcCommand (w : BitVec 6) (run : State → Result) (s : State) : Result :=
  if widthOk w = false then raiseFault .badWidth s
  else if bitCountOk s = false then raiseFault .badBitCount s
  else andThen (run s) (emit w)

end Sys2Proof.Machine
end

