-- ==== Sys2Proof/Machine/BitAlign.lean ====
section
/-! DEFINITION. The meanings of ALIGN and OSHIFT (43_bit_alignment_helpers.md). -/

namespace Sys2Proof.Machine

/-- ALIGN: the top K bits of the byte B[7:0], right-aligned (R90). -/
def execAlign (k : BitVec 4) (s : State) : Result :=
  if chunkOk k = false then raiseFault .badChunk s
  else deliver (alignByte k.toNat (lowByte s.b)) s

/-- OSHIFT: the top W bits of A, shifted down with zeros (R91). -/
def execOshift (w : BitVec 6) (s : State) : Result :=
  if widthOk w = false then raiseFault .badWidth s
  else deliver (outShift w.toNat s.a) s

end Sys2Proof.Machine
end

