-- ==== Sys2Proof/Machine/ByteSerial.lean ====
section
/-! DEFINITION. The meanings of CRCB and STEP (41_crc_byte_serial.md). -/

namespace Sys2Proof.Machine

/-- CRCB: the byte-serial CRC of N bits of IN with polynomial A and initial condition B (R65, R66). -/
def execCrcb (w : BitVec 6) (s : State) : Result := crcCommand w runByteEngine s

/-- STEP: one transition of K bits on the chunk value B, all 32 bits of it, and the register C (R67). -/
def execStep (k : BitVec 4) (s : State) : Result :=
  if chunkOk k = false then raiseFault .badChunk s
  else deliver (transition s.a s.b s.c k.toNat) s

end Sys2Proof.Machine
end

