-- ==== Sys2Proof/Machine/Galois.lean ====
section
/-! DEFINITION. The meaning of GMPY (40_galois_multiply.md). -/

namespace Sys2Proof.Machine

/-- GMPY: R <- GMPY(A, B); it has no failure modes (R58). -/
def execGmpy (s : State) : Result := deliver (gmpy s.a s.b) s

end Sys2Proof.Machine
end

