-- ==== Sys2Proof/Machine/WordSerial.lean ====
section
/-! DEFINITION. The meanings of CRCW and STEP16 (42_crc_word_serial.md). -/

namespace Sys2Proof.Machine

/-- CRCW: the word-serial CRC of N bits of IN with polynomial A and initial condition B (R78). -/
def execCrcw (w : BitVec 6) (s : State) : Result := crcCommand w (runWordEngine Config.wordTailBOffset) s

/-- STEP16: one full-word transition on the unit B[15:0] and the register C; it computes its own `scale8` (R81). -/
def execStep16 (s : State) : Result :=
  deliver (wordTransition s.a (scaleByEight s.a) s.c (lowByte s.b) (highByte s.b)) s

end Sys2Proof.Machine
end

