-- ==== Sys2Proof/Machine/Dispatch.lean ====
section
/-! DEFINITION. The dispatch: one arm per command, each one call of its meaning (30_encoding.md R49). -/

namespace Sys2Proof.Machine

def exec (i : Instr) (s : State) : Host.Outcome State Fault Refusal :=
  match i with
  | .gmpy => Sys2Proof.Machine.execGmpy s
  | .crcb w => Sys2Proof.Machine.execCrcb w s
  | .crcw w => Sys2Proof.Machine.execCrcw w s
  | .step k => Sys2Proof.Machine.execStep k s
  | .step16 => Sys2Proof.Machine.execStep16 s
  | .align k => Sys2Proof.Machine.execAlign k s
  | .oshift w => Sys2Proof.Machine.execOshift w s

end Sys2Proof.Machine
end

