-- ==== Sys2Proof/Machine/Step.lean ====
section
/-! DEFINITION. One step of the block: one whole transaction, which is atomic (10_state.md R18). -/

namespace Sys2Proof.Machine

/-- One step. A transaction in flight is decoded, and ends with its outcome: the command's own, or the decode fault
(30_encoding.md R52). With none in flight the block is idle. -/
def step (s : State) : Host.Outcome State Fault Refusal :=
  match fetch s with
  | none => idle s
  | some .illegalOp => raiseFault .illegalOp s
  | some .reservedField => raiseFault .reservedField s
  | some (.instr i) => exec i s

/-- The host presents the command word `w` on CMD, beside the operands that stand there, and issues it: the block fetches
nothing from memory (20_memory.md R41), and this is how a command comes to run (log entry 8). Every row of the table has
32 bits, so `nbits` adds nothing. DESIGN CHOICE, unsafe (log entry 17): it asks for no state with nothing in flight, and
a transaction in flight is dropped with no outcome, a case for which 10_state.md R18 and 70_reset_and_hazards.md R113
give no step. -/
def State.withFetchWord (s : State) (nbits w : Nat) : State :=
  issue { s with cmd := BitVec.ofNat 32 w }

end Sys2Proof.Machine
end

