-- ==== Sys2Proof/Machine/Instances.lean ====
section
/-! DEFINITION. Several instances of the block (20_memory.md R43, 60_exceptions.md R103): any number, which share nothing.
Each has its own state, and one step is a step of one of them. Log entry 13. -/

namespace Sys2Proof.Machine

/-- A step of instance `k`; the others stay as they are. Where there is no instance `k`, nothing happens; where its step
stops, the system has no next state. -/
def stepInstance (k : Nat) (system : List State) : Option (List State) :=
  match system[k]? with
  | none => some system
  | some s =>
    match step s with
    | .next t => some (system.set k t)
    | .fault _ => none
    | .refused _ => none

end Sys2Proof.Machine
end

