-- ==== Sys2Proof/Machine/HostSide.lean ====
section
/-! DEFINITION. The host's side of the interface: presenting a transaction, writing the buffer, the assembler lines
and pseudo-instructions, and a program as a sequence of commands (20_memory.md R38, 30_encoding.md R54 to R56). -/

namespace Sys2Proof.Machine

/-- What the host presents with one command (10_state.md R16). -/
structure Transaction where
  cmd : Word
  a : Word
  b : Word
  c : Word
  n : Word
  bytes : List Byte
  deriving DecidableEq, Repr

/-- The host puts the inputs of a transaction on the lines and issues it (R16). A transaction in flight is dropped with no
outcome (DESIGN CHOICE, log entry 17); `submit` is the host's own operation, which has no such case. -/
def present (t : Transaction) (s : State) : State :=
  issue { s with cmd := t.cmd, a := t.a, b := t.b, c := t.c, n := t.n, buf := Memory.ofBytes t.bytes }

/-- The host submits a transaction. A block runs one at a time, and the host holds its inputs to the outcome (10_state.md
R18, 70_reset_and_hazards.md R113): there is no step for a second one while one is in flight. -/
def submit (t : Transaction) (s : State) : Option State :=
  if s.inFlight then none else some (present t s)

/-- The host writes one byte of its buffer. The model has no step for it while a transaction is in flight
(70_reset_and_hazards.md R113), and there is no byte at an index of LEN or more (20_memory.md R28). -/
def hostWrite (i : Nat) (v : Byte) (s : State) : Option State :=
  if s.inFlight then none else (s.buf.write i v).map fun m => { s with buf := m }

/-- An assembler line (30_encoding.md R54), over the type `α` of its 32-bit operand values. -/
inductive Line (α : Type) where
  /-- `GMPY a, b` -/
  | gmpy (a b : α)
  /-- `CRCB w, poly, init, nbits, [bytes]` -/
  | crcb (w : BitVec 6) (poly init nbits : α) (bytes : List Byte)
  /-- `CRCW w, poly, init, nbits, [bytes]` -/
  | crcw (w : BitVec 6) (poly init nbits : α) (bytes : List Byte)
  /-- `STEP k, poly, v, crc` -/
  | step (k : BitVec 4) (poly v crc : α)
  /-- `STEP16 poly, unit, crc` -/
  | step16 (poly unit crc : α)
  /-- `ALIGN k, byte` -/
  | align (k : BitVec 4) (byte : α)
  /-- `OSHIFT w, x` -/
  | oshift (w : BitVec 6) (x : α)
  deriving DecidableEq, Repr

/-- The pseudo-instructions (30_encoding.md R55). -/
inductive Pseudo (α : Type) where
  /-- `FOLD k, x`, with k from 0 to 31 -/
  | fold (k : Fin 32) (x : α)
  /-- `SCALE8 poly` -/
  | scale8 (poly : α)
  /-- `STEP8 poly, v, crc` -/
  | step8 (poly v crc : α)
  /-- `FINAL w, x` -/
  | final (w : BitVec 6) (x : α)
  deriving DecidableEq, Repr

/-- The one command a pseudo-instruction expands to (R55); `lit` is how a number is written as an operand. -/
def Pseudo.expand {α : Type} (lit : Word → α) : Pseudo α → Line α
  | .fold k x => .gmpy x (lit (1#32 <<< k.val))
  | .scale8 poly => .gmpy poly (lit 0x100#32)
  | .step8 poly v crc => .step 8#4 poly v crc
  | .final w x => .oshift w x

/-- The transaction of a line whose operands are numbers (R54). An operand the line does not name is ignored by its
command (10_state.md R16), and is presented as 0. -/
def assemble : Line Word → Transaction
  | .gmpy a b => { cmd := encode .gmpy, a := a, b := b, c := 0#32, n := 0#32, bytes := [] }
  | .crcb w poly init nbits bytes =>
    { cmd := encode (.crcb w), a := poly, b := init, c := 0#32, n := nbits, bytes := bytes }
  | .crcw w poly init nbits bytes =>
    { cmd := encode (.crcw w), a := poly, b := init, c := 0#32, n := nbits, bytes := bytes }
  | .step k poly v crc => { cmd := encode (.step k), a := poly, b := v, c := crc, n := 0#32, bytes := [] }
  | .step16 poly unit crc => { cmd := encode .step16, a := poly, b := unit, c := crc, n := 0#32, bytes := [] }
  | .align k byte => { cmd := encode (.align k), a := 0#32, b := byte, c := 0#32, n := 0#32, bytes := [] }
  | .oshift w x => { cmd := encode (.oshift w), a := x, b := 0#32, c := 0#32, n := 0#32, bytes := [] }

/-- An operand of a program's line: a number, or the named result of an earlier line (R56). -/
inductive Operand where
  /-- A number. -/
  | value (v : Word)
  /-- The result of line `k`, counted from 0: the spec's `r1` is line 0's. -/
  | named (k : Nat)
  deriving DecidableEq, Repr

/-- The value of an operand, after lines with these outcomes. A line that faulted, or has not run, has no value
(60_exceptions.md R96). -/
def Operand.resolve (done : List Response) : Operand → Option Word
  | .value v => some v
  | .named k =>
    match done[k]? with
    | some (.result r) => some r
    | some (.fault _) => none
    | none => none

/-- A line with its operands resolved. -/
def Line.resolve (done : List Response) : Line Operand → Option (Line Word)
  | .gmpy a b => do return .gmpy (← a.resolve done) (← b.resolve done)
  | .crcb w p i n bytes => do return .crcb w (← p.resolve done) (← i.resolve done) (← n.resolve done) bytes
  | .crcw w p i n bytes => do return .crcw w (← p.resolve done) (← i.resolve done) (← n.resolve done) bytes
  | .step k p v c => do return .step k (← p.resolve done) (← v.resolve done) (← c.resolve done)
  | .step16 p u c => do return .step16 (← p.resolve done) (← u.resolve done) (← c.resolve done)
  | .align k b => do return .align k (← b.resolve done)
  | .oshift w x => do return .oshift w (← x.resolve done)

/-- The outcome the host reads after a step (R17). -/
def outcomeOf : Result → Option Response
  | .next s => s.response
  | .fault _ => none
  | .refused _ => none

/-- One line of a program: its outcome, and the block after it. -/
def runLine (done : List Response) (line : Line Operand) (s : State) : Option (Response × State) :=
  match line.resolve done with
  | none => none
  | some l =>
    match submit (assemble l) s with
    | none => none
    | some s' =>
      match step s' with
      | .next t => t.response.map fun o => (o, t)
      | .fault _ => none
      | .refused _ => none

/-- A program, a host-side sequence of commands (R56): the outcomes of its lines after those of `done`. The results have
their names on the host's side, and the block keeps nothing between lines (10_state.md R15). A line that names a missing
result cannot be issued (log entry 15). -/
def runProgram : State → List Response → List (Line Operand) → Option (List Response)
  | _, done, [] => some done
  | s, done, line :: rest =>
    match runLine done line s with
    | some (o, t) => runProgram t (done ++ [o]) rest
    | none => none

end Sys2Proof.Machine
end

