-- ==== Sys2Proof/Machine/Stream.lean ====
section
/-! DEFINITION. The input as the spec describes it, beside the engines: the bit-stream of 20_memory.md R30 and the
integer of 41_crc_byte_serial.md R72. No meaning uses these; the statements do. -/

namespace Sys2Proof.Machine

/-- Stream bit `q`: bit `7 - (q mod 8)` of byte `IN[q div 8]` (R30). Where there is no such byte, no rule speaks of the
bit, and it is taken as clear. -/
def streamBit (m : Memory) (q : Nat) : Bool :=
  match m.read (q / 8) with
  | some v => v.getLsbD (7 - q % 8)
  | none => false

/-- `M` of R72: the integer of the first `n` stream bits, the first bit most significant. -/
def message (m : Memory) : Nat → Nat
  | 0 => 0
  | n + 1 => 2 * message m n + (streamBit m n).toNat

/-- The final register of R72's closed form: `((B * 2^N) mod 2^32) ^ GMPY(A, M mod 2^32)`. -/
def closedRegister (s : State) : Word :=
  BitVec.ofNat 32 (s.b.toNat * 2 ^ s.n.toNat) ^^^ gmpy s.a (BitVec.ofNat 32 (message s.buf s.n.toNat))

/-- The number of bytes that hold stream bits, `ceil(N / 8)` (43_bit_alignment_helpers.md R92). -/
def streamBytes (n : Word) : Nat := (n.toNat + 7) / 8

/-- XOR over i from 0 to `n - 1` of `f i` (40_galois_multiply.md R59). -/
def xorBelow (f : Nat → Bool) : Nat → Bool
  | 0 => false
  | n + 1 => xorBelow f n ^^ f n

end Sys2Proof.Machine
end

