-- ==== Sys2Proof/Safety.lean ====
section
/-! DEFINITION. What holds of the block between transactions, in the terms the statements use (10_state.md R15 to R27,
60_exceptions.md R95). -/

namespace Sys2Proof.Machine

/-- A result of the command `i` is below the bound its rule gives (41_crc_byte_serial.md R75, 42_crc_word_serial.md R89,
43_bit_alignment_helpers.md R90, R91). -/
def resultFits (r : Word) : Instr → Bool
  | .gmpy => true
  | .crcb w => decide (r.toNat < 2 ^ w.toNat)
  | .crcw w => decide (r.toNat < 2 ^ w.toNat)
  | .step _ => true
  | .step16 => true
  | .align k => decide (r.toNat < 2 ^ k.toNat)
  | .oshift w => decide (r.toNat < 2 ^ w.toNat)

/-- The execution faults of each command: the column "commands" of R95. -/
def faultFits (code : FaultCode) : Instr → Bool
  | .gmpy => false
  | .crcb _ => code == .badWidth || code == .badBitCount
  | .crcw _ => code == .badWidth || code == .badBitCount
  | .step _ => code == .badChunk
  | .step16 => false
  | .align _ => code == .badChunk
  | .oshift _ => code == .badWidth

/-- An outcome is one that the command word on the input can have: a result within its command's bound, or a fault its
word or command can raise (R95). -/
def responseFits (cmd : Word) : Response → Bool
  | .result r =>
    match decode cmd with
    | .instr i => resultFits r i
    | .illegalOp => false
    | .reservedField => false
  | .fault code =>
    match decode cmd with
    | .instr i => faultFits code i
    | .illegalOp => code == .illegalOp
    | .reservedField => code == .reservedField

/-- The block between transactions: the buffer is in its canonical form, no working value exists (R27), no outcome can be
read while a transaction is in flight (R27), and the outcome that can be read is one the command can have. The form of the buffer is log entry 5 and how long an
outcome stands is log entry 14, both DESIGN CHOICE: those clauses are the model's, not the spec's. -/
def State.inv (s : State) : Bool :=
  s.buf.wf && s.engine.isNone && (!s.inFlight || s.response.isNone) && s.response.all (responseFits s.cmd)

/-- The mask of the operation `op` in the table of 30_encoding.md R50. -/
def tableMask : Nat → Word
  | 0 => 0xFFFFFFFF#32
  | 1 => 0xFFFFFC0F#32
  | 2 => 0xFFFFFC0F#32
  | 3 => 0xFFFFC3FF#32
  | 4 => 0xFFFFFFFF#32
  | 5 => 0xFFFFC3FF#32
  | 6 => 0xFFFFFC0F#32
  | _ => 0#32

/-- The first fault that applies to the transaction the inputs present, in the order of 60_exceptions.md R98 and on the
causes of R97, read from the command word's bits without the decoder. -/
def firstFault (s : State) : Option FaultCode :=
  let op := (s.cmd.extractLsb' 0 4).toNat
  let w := (s.cmd.extractLsb' 4 6).toNat
  let k := (s.cmd.extractLsb' 10 4).toNat
  if 7 ≤ op then some .illegalOp
  else if s.cmd &&& tableMask op ≠ BitVec.ofNat 32 op then some .reservedField
  else if (op = 1 ∨ op = 2 ∨ op = 6) ∧ (w < 1 ∨ 32 < w) then some .badWidth
  else if (op = 3 ∨ op = 5) ∧ (k < 1 ∨ 8 < k) then some .badChunk
  else if (op = 1 ∨ op = 2) ∧ 8 * s.buf.len < s.n.toNat then some .badBitCount
  else none

/-- Two states agree on the operands, and the operand bits, that the command `i` uses: the column "operands used" of
30_encoding.md R49, with the slices of R51. -/
def agreeOnUsed (s s' : State) : Instr → Prop
  | .gmpy => s'.a = s.a ∧ s'.b = s.b
  | .crcb _ => s'.a = s.a ∧ s'.b = s.b ∧ s'.n = s.n ∧ s'.buf = s.buf
  | .crcw _ => s'.a = s.a ∧ s'.b = s.b ∧ s'.n = s.n ∧ s'.buf = s.buf
  | .step _ => s'.a = s.a ∧ s'.b = s.b ∧ s'.c = s.c
  | .step16 => s'.a = s.a ∧ s'.b.extractLsb' 0 16 = s.b.extractLsb' 0 16 ∧ s'.c = s.c
  | .align _ => s'.b.extractLsb' 0 8 = s.b.extractLsb' 0 8
  | .oshift _ => s'.a = s.a

end Sys2Proof.Machine
end

