-- ==== Sys2Proof/Certificates/Slice0/Obligations.lean ====
section
/-! DEFINITION. The statements for the provers. A result is stated as the whole next state: the inputs and the buffer as
they were, no transaction in flight, no working value, and the outcome. -/

open Sys2Proof Sys2Proof.Machine

/-! ## The command word -/

/-- Decoding the word of a command gives the command back, for every value its fields can hold (30_encoding.md R44,
R49, R50). Every well-formed command is among them. -/
def Obligations.DecodeOfEncodeGivesTheCommand : Prop :=
  ∀ i : Instr, decode (encode i) = .instr i

/-- A word that decodes to a command is the word of that command: no word has a second spelling (30_encoding.md R50). -/
def Obligations.EncodeOfDecodedGivesTheWord : Prop :=
  ∀ (cmd : Word) (i : Instr), decode cmd = .instr i → encode i = cmd

/-- 30_encoding.md R50: a word decodes to a row's command exactly where it matches the row, with the fields of R44, and
a word that matches no row is rejected. -/
def Obligations.RowsDecodeByMatchAndMask : Prop :=
  ∀ cmd : Word,
    (decode cmd = .instr .gmpy ↔ cmd &&& 0xFFFFFFFF#32 = 0x00000000#32) ∧
    (∀ w, decode cmd = .instr (.crcb w) ↔ cmd &&& 0xFFFFFC0F#32 = 0x00000001#32 ∧ w = cmd.extractLsb' 4 6) ∧
    (∀ w, decode cmd = .instr (.crcw w) ↔ cmd &&& 0xFFFFFC0F#32 = 0x00000002#32 ∧ w = cmd.extractLsb' 4 6) ∧
    (∀ k, decode cmd = .instr (.step k) ↔ cmd &&& 0xFFFFC3FF#32 = 0x00000003#32 ∧ k = cmd.extractLsb' 10 4) ∧
    (decode cmd = .instr .step16 ↔ cmd &&& 0xFFFFFFFF#32 = 0x00000004#32) ∧
    (∀ k, decode cmd = .instr (.align k) ↔ cmd &&& 0xFFFFC3FF#32 = 0x00000005#32 ∧ k = cmd.extractLsb' 10 4) ∧
    (∀ w, decode cmd = .instr (.oshift w) ↔ cmd &&& 0xFFFFFC0F#32 = 0x00000006#32 ∧ w = cmd.extractLsb' 4 6) ∧
    ((∀ i, decode cmd ≠ .instr i) ↔ decode cmd = .illegalOp ∨ decode cmd = .reservedField)

/-- 30_encoding.md R53: a word whose OP is 7 to 15 faults with ILLEGAL_OP, and every word either decodes to one of the
seven commands or faults. -/
def Obligations.OpcodesFromSevenFaultIllegal : Prop :=
  ∀ s : State, s.inFlight = true →
    (7 ≤ (s.cmd.extractLsb' 0 4).toNat →
      step s = .next { s with inFlight := false, engine := none, response := some (.fault .illegalOp) }) ∧
    ((∃ i, decode s.cmd = .instr i) ∨
      ∃ code, step s = .next { s with inFlight := false, engine := none, response := some (.fault code) })

/-- Words written out from 30_encoding.md R54 and the tables of 95_test_vectors.md decode to what they stand for. -/
def Obligations.SpecWordsDecodeAsWritten : Prop :=
  decode 0x00000000#32 = .instr .gmpy ∧ decode 0x00000081#32 = .instr (.crcb 8#6) ∧
  decode 0x00000202#32 = .instr (.crcw 32#6) ∧ decode 0x00002003#32 = .instr (.step 8#4) ∧
  decode 0x00000004#32 = .instr .step16 ∧ decode 0x00001405#32 = .instr (.align 5#4) ∧
  decode 0x00000106#32 = .instr (.oshift 16#6) ∧ decode 0x00000817#32 = .illegalOp ∧
  decode 0x00004001#32 = .reservedField

/-! ## One step -/

/-- A transaction in flight whose word decodes to a command, well-formed or not, runs that command, and the step adds
nothing to it (10_state.md R16, R18, 30_encoding.md R52). -/
def Obligations.StepRunsTheDecodedCommand : Prop :=
  ∀ (s : State) (i : Instr), s.inFlight = true → decode s.cmd = .instr i → step s = exec i s

/-- The command word the host presents is the one that runs: what a program's loading comes to on this block
(20_memory.md R41). How a command comes to run is the model's choice (log entry 8), and so is that a state with a
transaction in flight is no exception (log entry 17). -/
def Obligations.PresentedWordRunsNext : Prop :=
  ∀ (s : State) (nbits w : Nat) (i : Instr), decodeTableWord nbits w = some i →
    step (s.withFetchWord nbits w) = exec i (s.withFetchWord nbits w)

/-- A word the decoder rejects ends its transaction with the decode fault and no result (30_encoding.md R52,
60_exceptions.md R96). -/
def Obligations.StepReportsDecodeFaults : Prop :=
  ∀ s : State, s.inFlight = true →
    (decode s.cmd = .illegalOp →
      step s = .next { s with inFlight := false, engine := none, response := some (.fault .illegalOp) }) ∧
    (decode s.cmd = .reservedField →
      step s = .next { s with inFlight := false, engine := none, response := some (.fault .reservedField) })

/-- With no transaction in flight a step changes nothing. The model's choice: log entry 4 (the spec says only that the
host issues every command, 30_encoding.md R57). -/
def Obligations.IdleStepChangesNothing : Prop :=
  ∀ s : State, s.inFlight = false → step s = .next s

/-- 10_state.md R15: the outcome of a transaction is a function of its inputs alone, whatever stood in the working values
and the outcome before. It always ends with an outcome (R18), and nothing but the interface's own marks changes. -/
def Obligations.OutcomeIsAFunctionOfTheInputs : Prop :=
  ∀ s s' : State, s.inFlight = true → s'.inFlight = true → s'.cmd = s.cmd → s'.a = s.a → s'.b = s.b → s'.c = s.c →
    s'.n = s.n → s'.buf = s.buf →
    ∃ o, step s = .next { s with inFlight := false, engine := none, response := some o } ∧
      step s' = .next { s' with inFlight := false, engine := none, response := some o }

/-- 60_exceptions.md R98, on the causes of R97: the first fault that applies is the one reported, and where none applies
there is a result. -/
def Obligations.FirstApplicableFaultIsReported : Prop :=
  ∀ s : State, s.inFlight = true →
    (∀ code, firstFault s = some code →
      step s = .next { s with inFlight := false, engine := none, response := some (.fault code) }) ∧
    (firstFault s = none →
      ∃ r, step s = .next { s with inFlight := false, engine := none, response := some (.result r) })

/-! ## GMPY -/

/-- GMPY delivers the product of A and B whose bit j is the XOR over i from 0 to j of `a[j - i] & b[i]`
(40_galois_multiply.md R58, R59). -/
def Obligations.GmpyDeliversTheTruncatedProduct : Prop :=
  ∀ s : State,
    exec .gmpy s = .next { s with inFlight := false, engine := none, response := some (.result (gmpy s.a s.b)) } ∧
    ∀ j, j < 32 → (gmpy s.a s.b).getLsbD j = xorBelow (fun i => s.a.getLsbD (j - i) && s.b.getLsbD i) (j + 1)

/-- 40_galois_multiply.md R61: multiplication in the ring of GF(2) polynomials modulo x^32, whose product has the
coefficients of R59, with the laws that R61 lists. -/
def Obligations.GmpyIsTheTruncatedPolynomialRing : Prop :=
  (∀ (a b : Word) (j : Nat), j < 32 →
    (gmpy a b).getLsbD j = xorBelow (fun i => a.getLsbD (j - i) && b.getLsbD i) (j + 1)) ∧
  (∀ a b, gmpy a b = gmpy b a) ∧
  (∀ a b c, gmpy (gmpy a b) c = gmpy a (gmpy b c)) ∧
  (∀ a b c, gmpy a (b ^^^ c) = gmpy a b ^^^ gmpy a c) ∧
  (∀ a, gmpy a 1#32 = a) ∧ (∀ a, gmpy a 0#32 = 0#32) ∧
  (∀ b, gmpy 0#32 b = 0#32) ∧ (∀ b : Word, b.toNat % 2 = 0 → gmpy 0x80000000#32 b = 0#32)

/-- 40_galois_multiply.md R62: multiplying by a power of two is a truncated left shift, and two folds by 8 are one by 16. -/
def Obligations.GmpyByAPowerOfTwoIsAShift : Prop :=
  (∀ (a : Word) (k : Fin 32), gmpy a (1#32 <<< k.val) = a <<< k.val) ∧
  (∀ c : Word, gmpy (gmpy c (1#32 <<< 8)) (1#32 <<< 8) = c <<< 16)

/-! ## STEP, STEP16, ALIGN, OSHIFT -/

/-- STEP with K from 1 to 8 delivers `GMPY(A, B) ^ (C << K)`, with all 32 bits of B (41_crc_byte_serial.md R67). -/
def Obligations.StepDeliversTheTransition : Prop :=
  ∀ (k : BitVec 4) (s : State), 1 ≤ k.toNat → k.toNat ≤ 8 →
    exec (.step k) s = .next { s with
      inFlight := false, engine := none, response := some (.result (gmpy s.a s.b ^^^ (s.c <<< k.toNat))) }

/-- STEP16 delivers `GMPY(A << 8, b0) ^ GMPY(A, b1) ^ (C << 16)` with b0 = B[7:0] and b1 = B[15:8]
(42_crc_word_serial.md R81). -/
def Obligations.Step16DeliversTheWordTransition : Prop :=
  ∀ s : State, exec .step16 s = .next { s with
    inFlight := false, engine := none, response := some (.result
      (gmpy (s.a <<< 8) (s.b &&& 0xFF#32) ^^^ gmpy s.a ((s.b >>> 8) &&& 0xFF#32) ^^^ (s.c <<< 16))) }

/-- STEP16 equals two STEP 8 commands, b0 consumed first (42_crc_word_serial.md R81, corner cases). -/
def Obligations.Step16IsTwoByteSteps : Prop :=
  ∀ s : State, ∃ r1 r2,
    exec (.step 8#4) { s with b := s.b &&& 0xFF#32 } = .next { s with
      b := s.b &&& 0xFF#32, inFlight := false, engine := none, response := some (.result r1) } ∧
    exec (.step 8#4) { s with b := (s.b >>> 8) &&& 0xFF#32, c := r1 } = .next { s with
      b := (s.b >>> 8) &&& 0xFF#32, c := r1, inFlight := false, engine := none, response := some (.result r2) } ∧
    exec .step16 s = .next { s with inFlight := false, engine := none, response := some (.result r2) }

/-- ALIGN with K from 1 to 8 delivers the byte B[7:0] divided by 2^(8 - K) (43_bit_alignment_helpers.md R90). -/
def Obligations.AlignDeliversTheTopBits : Prop :=
  ∀ (k : BitVec 4) (s : State), 1 ≤ k.toNat → k.toNat ≤ 8 →
    exec (.align k) s = .next { s with
      inFlight := false, engine := none, response := some (.result
        (BitVec.ofNat 32 (s.b.toNat % 256 / 2 ^ (8 - k.toNat)))) }

/-- OSHIFT with W from 1 to 32 delivers A divided by 2^(32 - W), with zeros shifted in (43_bit_alignment_helpers.md R91,
90_conflicts.md C2). -/
def Obligations.OshiftDeliversTheTopBits : Prop :=
  ∀ (w : BitVec 6) (s : State), 1 ≤ w.toNat → w.toNat ≤ 32 →
    exec (.oshift w) s = .next { s with
      inFlight := false, engine := none, response := some (.result
        (BitVec.ofNat 32 (s.a.toNat / 2 ^ (32 - w.toNat)))) }

/-! ## The CRC engines -/

/-- 41_crc_byte_serial.md R72: CRCB, where none of its faults applies, delivers the closed form of its stream, whose term
`(B * 2^N) mod 2^32` is `B << N` for N below 32 and 0 from there on. -/
def Obligations.CrcbDeliversTheClosedForm : Prop :=
  ∀ (w : BitVec 6) (s : State), 1 ≤ w.toNat → w.toNat ≤ 32 → s.n.toNat ≤ 8 * s.buf.len →
    exec (.crcb w) s = .next { s with
      inFlight := false, engine := none, response := some (.result
        ((BitVec.ofNat 32 (s.b.toNat * 2 ^ s.n.toNat) ^^^
          gmpy s.a (BitVec.ofNat 32 (message s.buf s.n.toNat))) >>> (32 - w.toNat))) } ∧
    BitVec.ofNat 32 (s.b.toNat * 2 ^ s.n.toNat) = if s.n.toNat < 32 then s.b <<< s.n.toNat else 0#32

/-- CRCW, where none of its faults applies, delivers the same closed form (42_crc_word_serial.md R78, R89). -/
def Obligations.CrcwDeliversTheClosedForm : Prop :=
  ∀ (w : BitVec 6) (s : State), 1 ≤ w.toNat → w.toNat ≤ 32 → s.n.toNat ≤ 8 * s.buf.len →
    exec (.crcw w) s = .next { s with
      inFlight := false, engine := none, response := some (.result
        ((BitVec.ofNat 32 (s.b.toNat * 2 ^ s.n.toNat) ^^^
          gmpy s.a (BitVec.ofNat 32 (message s.buf s.n.toNat))) >>> (32 - w.toNat))) }

/-- 42_crc_word_serial.md R87: CRCW and CRCB give the same outcome for every N, LEN, A, B, W and every buffer. It rests on
the spec's own value of `WORD_TAILB_OFFSET` (92_eei_decisions.md D11, log entry 7). -/
def Obligations.CrcwAndCrcbGiveTheSameOutcome : Prop :=
  ∀ (w : BitVec 6) (s : State), exec (.crcw w) s = exec (.crcb w) s

/-- 41_crc_byte_serial.md R71: with N = 0 the result is `initCond >> (32 - outWidth)`, for any LEN; CRCW too. -/
def Obligations.ZeroLengthInputShiftsTheInitialCondition : Prop :=
  ∀ (w : BitVec 6) (s : State), 1 ≤ w.toNat → w.toNat ≤ 32 → s.n = 0#32 →
    exec (.crcb w) s = .next { s with
      inFlight := false, engine := none, response := some (.result (s.b >>> (32 - w.toNat))) } ∧
    exec (.crcw w) s = .next { s with
      inFlight := false, engine := none, response := some (.result (s.b >>> (32 - w.toNat))) }

/-- 41_crc_byte_serial.md R75: a CRCB result is below 2^W, and its bits W to 31 are zero; a CRCW result too. -/
def Obligations.CrcResultsOccupyTheLowWidthBits : Prop :=
  ∀ (w : BitVec 6) (i : Instr) (s t : State) (r : Word), i = .crcb w ∨ i = .crcw w →
    exec i s = .next t → t.response = some (.result r) →
    r.toNat < 2 ^ w.toNat ∧ ∀ j, w.toNat ≤ j → j ≤ 31 → r.getLsbD j = false

/-- The result of CRCB and of CRCW depends only on the last 32 stream bits, and for N of 32 or more not on the initial
condition; in particular no bit at or beyond N has an effect (20_memory.md R30, 41_crc_byte_serial.md R73, R77). -/
def Obligations.OnlyTheLastThirtyTwoStreamBitsMatter : Prop :=
  ∀ (w : BitVec 6) (s s' : State), 1 ≤ w.toNat → w.toNat ≤ 32 → s'.a = s.a → s'.n = s.n →
    (s.n.toNat < 32 → s'.b = s.b) → s.n.toNat ≤ 8 * s.buf.len → s.n.toNat ≤ 8 * s'.buf.len →
    (∀ q, q < s.n.toNat → s.n.toNat ≤ q + 32 → streamBit s'.buf q = streamBit s.buf q) →
    ∃ r,
      exec (.crcb w) s = .next { s with inFlight := false, engine := none, response := some (.result r) } ∧
      exec (.crcb w) s' = .next { s' with inFlight := false, engine := none, response := some (.result r) } ∧
      exec (.crcw w) s = .next { s with inFlight := false, engine := none, response := some (.result r) } ∧
      exec (.crcw w) s' = .next { s' with inFlight := false, engine := none, response := some (.result r) }

/-- With B = 0 and N and A fixed, the CRCB result of the XOR of two messages is the XOR of their results
(41_crc_byte_serial.md R73). -/
def Obligations.CrcbIsLinearInTheMessage : Prop :=
  ∀ (w : BitVec 6) (s : State) (m1 m2 m3 : Memory), 1 ≤ w.toNat → w.toNat ≤ 32 → s.b = 0#32 →
    s.n.toNat ≤ 8 * m1.len → s.n.toNat ≤ 8 * m2.len → s.n.toNat ≤ 8 * m3.len →
    (∀ q, q < s.n.toNat → streamBit m3 q = (streamBit m1 q ^^ streamBit m2 q)) →
    ∃ r1 r2,
      exec (.crcb w) { s with buf := m1 } = .next { s with
        buf := m1, inFlight := false, engine := none, response := some (.result r1) } ∧
      exec (.crcb w) { s with buf := m2 } = .next { s with
        buf := m2, inFlight := false, engine := none, response := some (.result r2) } ∧
      exec (.crcb w) { s with buf := m3 } = .next { s with
        buf := m3, inFlight := false, engine := none, response := some (.result (r1 ^^^ r2)) }

/-- Chaining (41_crc_byte_serial.md R73): CRCB over the bytes `xs` and then N2 bits of `ys` equals CRCB over N2 bits of
`ys` whose initial condition is the W = 32 result over `xs`. -/
def Obligations.CrcbChainsOverAByteBoundary : Prop :=
  ∀ (w : BitVec 6) (s : State) (xs ys : List Byte) (n2 : Nat), 1 ≤ w.toNat → w.toNat ≤ 32 →
    8 * xs.length + n2 < 2 ^ 32 → n2 ≤ 8 * ys.length →
    ∃ r1 r,
      exec (.crcb 32#6) { s with n := BitVec.ofNat 32 (8 * xs.length), buf := Memory.ofBytes xs } = .next { s with
        n := BitVec.ofNat 32 (8 * xs.length), buf := Memory.ofBytes xs,
        inFlight := false, engine := none, response := some (.result r1) } ∧
      exec (.crcb w) { s with b := r1, n := BitVec.ofNat 32 n2, buf := Memory.ofBytes ys } = .next { s with
        b := r1, n := BitVec.ofNat 32 n2, buf := Memory.ofBytes ys,
        inFlight := false, engine := none, response := some (.result r) } ∧
      exec (.crcb w) { s with n := BitVec.ofNat 32 (8 * xs.length + n2), buf := Memory.ofBytes (xs ++ ys) } =
        .next { s with
          n := BitVec.ofNat 32 (8 * xs.length + n2), buf := Memory.ofBytes (xs ++ ys),
          inFlight := false, engine := none, response := some (.result r) }

/-- 41_crc_byte_serial.md R74: flipping stream bit `p`, with d = N - 1 - p, changes R by `(A << d) >> (32 - W)` where
d < 32 and by nothing otherwise; so it changes R exactly where d < 32 and A has a set bit from 32 - W - d to 31 - d. With
A = 0x9B000000 and W = 8, exactly the flips with d of at most 7 change R. -/
def Obligations.SingleBitFlipHasTheExactEffect : Prop :=
  ∀ (w : BitVec 6) (s s' : State) (p d : Nat), 1 ≤ w.toNat → w.toNat ≤ 32 →
    s'.a = s.a → s'.b = s.b → s'.n = s.n → s.n.toNat ≤ 8 * s.buf.len → s.n.toNat ≤ 8 * s'.buf.len →
    p + d + 1 = s.n.toNat →
    (∀ q, q < s.n.toNat → streamBit s'.buf q = (streamBit s.buf q ^^ decide (q = p))) →
    ∃ r r',
      exec (.crcb w) s = .next { s with inFlight := false, engine := none, response := some (.result r) } ∧
      exec (.crcb w) s' = .next { s' with inFlight := false, engine := none, response := some (.result r') } ∧
      (d < 32 → r ^^^ r' = (s.a <<< d) >>> (32 - w.toNat)) ∧ (32 ≤ d → r = r') ∧
      (r ≠ r' ↔ d < 32 ∧ ∃ j, 32 ≤ j + w.toNat + d ∧ j + d ≤ 31 ∧ s.a.getLsbD j = true) ∧
      (s.a = 0x9B000000#32 → w = 8#6 → (r ≠ r' ↔ d ≤ 7))

/-- The cursor of an engine ends at ceil(N / 8), which is at most 2^29, both engines end with the same register, and
`scale8` exists in CRCW only, with the value `A << 8` (10_state.md R20 to R22, 20_memory.md R33, 42_crc_word_serial.md
R80). -/
def Obligations.EngineCursorsEndAfterTheStreamBytes : Prop :=
  ∀ s : State, s.n.toNat ≤ 8 * s.buf.len →
    streamBytes s.n ≤ 2 ^ 29 ∧
    runByteEngine s = .next { s with
      engine := some { crc := closedRegister s, pos := streamBytes s.n, scale8 := none } } ∧
    runWordEngine Config.wordTailBOffset s = .next { s with
      engine := some { crc := closedRegister s, pos := streamBytes s.n, scale8 := some (s.a <<< 8) } }

/-- The alternative `WORD_TAILB_OFFSET` = 1, which the spec names and does not adopt: tail case B stops where it would
read beyond the buffer, and no byte is invented (42_crc_word_serial.md R88). -/
def Obligations.TheOtherTailOffsetStopsBeyondTheBuffer : Prop :=
  ∀ s : State, s.n.toNat ≤ 8 * s.buf.len → 1 ≤ s.n.toNat % 16 → s.n.toNat % 16 ≤ 7 →
    s.buf.len ≤ 2 * (s.n.toNat / 16) + 1 →
    runWordEngine 1 s = .fault (.readBeyondBuffer (2 * (s.n.toNat / 16) + 1))

/-- A transition of an engine is the ALIGN and STEP commands on the next byte (41_crc_byte_serial.md R68, R69): R68 is
K = 8, R69 is K = L. -/
def Obligations.ByteTransitionIsAlignThenStep : Prop :=
  ∀ (k : BitVec 4) (s : State) (e : Engine) (v : Byte), 1 ≤ k.toNat → k.toNat ≤ 8 →
    s.engine = some e → s.buf.read e.pos = some v →
    ∃ r1 r,
      exec (.align k) { s with b := v.setWidth 32 } = .next { s with
        b := v.setWidth 32, inFlight := false, engine := none, response := some (.result r1) } ∧
      exec (.step k) { s with b := r1, c := e.crc } = .next { s with
        b := r1, c := e.crc, inFlight := false, engine := none, response := some (.result r) } ∧
      chunkStep 0 k.toNat s = .next { s with
        engine := some { crc := r, pos := e.pos + 1, scale8 := e.scale8 } }

/-- An iteration of the full-word loop is the STEP16 command on the unit `{IN[pos+1], IN[pos]}` (20_memory.md R31,
42_crc_word_serial.md R82). -/
def Obligations.WordTransitionIsStep16 : Prop :=
  ∀ (s : State) (e : Engine) (lo hi : Byte), s.engine = some e → e.scale8 = some (gmpy s.a (1#32 <<< 8)) →
    s.buf.read e.pos = some lo → s.buf.read (e.pos + 1) = some hi →
    ∃ r,
      exec .step16 { s with b := (hi ++ lo).setWidth 32, c := e.crc } = .next { s with
        b := (hi ++ lo).setWidth 32, c := e.crc, inFlight := false, engine := none,
        response := some (.result r) } ∧
      wordStep s = .next { s with engine := some { crc := r, pos := e.pos + 2, scale8 := e.scale8 } }

/-- The split of N that the engines use is the split of its bit fields (43_bit_alignment_helpers.md R92). -/
def Obligations.BitCountSplitsIntoItsFields : Prop :=
  ∀ n : Word,
    fullBytes n = (n.extractLsb' 3 29).toNat ∧ leftoverBits n = (n.extractLsb' 0 3).toNat ∧
    fullWords n = (n.extractLsb' 4 28).toNat ∧ hasExtraByte n = n.getLsbD 3 ∧
    fullBytes n = 2 * fullWords n + (if hasExtraByte n = true then 1 else 0) ∧
    streamBytes n = fullBytes n + (if 0 < leftoverBits n then 1 else 0)

/-! ## Faults -/

/-- Illegal fields and bit counts fault before anything of the command is performed (60_exceptions.md R96, R97). -/
def Obligations.IllegalFieldsFault : Prop :=
  (∀ (w : BitVec 6) (s : State), w.toNat < 1 ∨ 32 < w.toNat →
    exec (.crcb w) s = .next { s with inFlight := false, engine := none, response := some (.fault .badWidth) } ∧
    exec (.crcw w) s = .next { s with inFlight := false, engine := none, response := some (.fault .badWidth) } ∧
    exec (.oshift w) s = .next { s with inFlight := false, engine := none, response := some (.fault .badWidth) }) ∧
  (∀ (k : BitVec 4) (s : State), k.toNat < 1 ∨ 8 < k.toNat →
    exec (.step k) s = .next { s with inFlight := false, engine := none, response := some (.fault .badChunk) } ∧
    exec (.align k) s = .next { s with inFlight := false, engine := none, response := some (.fault .badChunk) }) ∧
  (∀ (w : BitVec 6) (s : State), 1 ≤ w.toNat → w.toNat ≤ 32 → 8 * s.buf.len < s.n.toNat →
    exec (.crcb w) s = .next { s with inFlight := false, engine := none, response := some (.fault .badBitCount) } ∧
    exec (.crcw w) s = .next { s with inFlight := false, engine := none, response := some (.fault .badBitCount) })

/-- The FAULT output is the code of 60_exceptions.md R95: 0 exactly with a result, and never 6 or 7. -/
def Obligations.FaultOutputHasTheSpecCodes : Prop :=
  (∀ r, faultOutput (.result r) = 0#3) ∧ faultOutput (.fault .illegalOp) = 1#3 ∧
  faultOutput (.fault .reservedField) = 2#3 ∧ faultOutput (.fault .badWidth) = 3#3 ∧
  faultOutput (.fault .badChunk) = 4#3 ∧ faultOutput (.fault .badBitCount) = 5#3 ∧
  ∀ o, faultOutput o ≠ 6#3 ∧ faultOutput o ≠ 7#3 ∧ (faultOutput o = 0#3 ↔ ∃ r, o = .result r)

/-! ## What a command leaves unchanged, and what it ignores -/

/-- The frame of all seven commands, GMPY, CRCB, CRCW, STEP, STEP16, ALIGN and OSHIFT: the inputs are unchanged, every
byte of the buffer reads as before (20_memory.md R35), no working value is left, and no transaction is in flight. -/
def Obligations.CommandsLeaveInputsAndBufferUnchanged : Prop :=
  ∀ (i : Instr) (s t : State), exec i s = .next t →
    t.cmd = s.cmd ∧ t.a = s.a ∧ t.b = s.b ∧ t.c = s.c ∧ t.n = s.n ∧ t.buf = s.buf ∧
    (∀ x, t.buf.read x = s.buf.read x) ∧ t.engine = none ∧ t.inFlight = false

/-- An operand, or an operand bit, that a command does not use does not affect its outcome (10_state.md R16,
30_encoding.md R49, R51). -/
def Obligations.UnusedOperandsAreIgnored : Prop :=
  ∀ (i : Instr) (s s' : State), agreeOnUsed s s' i →
    ∃ o, exec i s = .next { s with inFlight := false, engine := none, response := some o } ∧
      exec i s' = .next { s' with inFlight := false, engine := none, response := some o }

/-! ## Invariants and reset -/

/-- Every step keeps the invariant of Safety.lean: no working value outside a command, and every outcome one its command
can have (10_state.md R17, R27, 41_crc_byte_serial.md R75, 43_bit_alignment_helpers.md R90, R91, 60_exceptions.md R95).
Two of its clauses are the model's choice and no rule of the spec: that the buffer is canonical (log entry 5, DESIGN
CHOICE), and when an outcome stands, which is never while a transaction is in flight and otherwise beside the command word
that gave it (log entry 14, DESIGN CHOICE). -/
def Obligations.StepKeepsTheBlockInvariant : Prop :=
  ∀ s t : State, s.inv = true → step s = .next t → t.inv = true

/-- The invariant holds right after reset: no working value and no outcome (10_state.md R27). Its clause that the buffer
is canonical is the model's choice: the empty buffer at reset (log entry 3) in the model's own form (log entry 5), both
DESIGN CHOICE. -/
def Obligations.ResetMeetsTheBlockInvariant : Prop :=
  State.reset.inv = true

/-- What the host does between transactions keeps the invariant: submitting a transaction, issuing a command word,
writing a buffer byte, resetting the block (10_state.md R16, 20_memory.md R38, 70_reset_and_hazards.md R110). The model's
choice, and no rule of the spec, are the invariant's clauses that the buffer is canonical (log entry 5) and when an outcome
stands (log entry 14), and that a command word can be issued while a transaction is in flight (log entry 17), each a DESIGN
CHOICE. -/
def Obligations.HostOperationsKeepTheBlockInvariant : Prop :=
  ∀ s : State, s.inv = true →
    (∀ t u, submit t s = some u → u.inv = true) ∧ (∀ nbits w, (s.withFetchWord nbits w).inv = true) ∧
    (∀ i v t, hostWrite i v s = some t → t.inv = true) ∧ (resetBlock s).inv = true

/-- After reset no transaction is in flight, no working value exists and there is no outcome (10_state.md R27,
70_reset_and_hazards.md R109). -/
def Obligations.ResetLeavesNoTransaction : Prop :=
  core.reset = State.reset ∧ State.reset.inFlight = false ∧ State.reset.engine = none ∧ State.reset.response = none

/-- A reset abandons a transaction in flight: no result and no fault code, and the transaction after it runs as any other
(70_reset_and_hazards.md R109, R110). The clause that a step after it changes nothing, so that no outcome comes by itself,
rests on the idle step, which is the model's choice (log entry 4, DESIGN CHOICE). -/
def Obligations.ResetAbandonsTheTransaction : Prop :=
  ∀ s : State, (resetBlock s).inFlight = false ∧ (resetBlock s).engine = none ∧ (resetBlock s).response = none ∧
    step (resetBlock s) = .next (resetBlock s) ∧ step (issue (resetBlock s)) = step (issue s)

/-! ## The buffer, the host and other instances -/

/-- A host write changes the byte it names and no other (20_memory.md R29, R38). The canonical form it starts from is the
model's choice (log entry 5, DESIGN CHOICE). -/
def Obligations.HostWriteChangesOneByte : Prop :=
  ∀ (m m' : Memory) (i : Nat) (v : Byte), m.wf = true → m.write i v = some m' →
    ∀ x, m'.read x = if x = i then some v else m.read x

/-- The buffer of a byte list holds exactly that list, in wire order, and no byte at an index of LEN or more
(20_memory.md R28, R29, 30_encoding.md R54). -/
def Obligations.BufferOfAByteListReadsTheList : Prop :=
  ∀ (bytes : List Byte) (i : Nat), (Memory.ofBytes bytes).read i = bytes[i]?

/-- Two canonical buffers of one length that read alike are equal data. The canonical form is wholly the model's choice
(log entry 5, DESIGN CHOICE): 20_memory.md section 1 gives the bytes and their indices, and no form. -/
def Obligations.CanonicalBuffersThatReadAlikeAreEqual : Prop :=
  ∀ m m' : Memory, m.wf = true → m'.wf = true → m'.len = m.len → (∀ x, m'.read x = m.read x) → m' = m

/-- The pseudo-instructions of 30_encoding.md R55, presented to the block in any state, give their meanings: `x << k`, the
word engine's `scale8`, one full-byte transition, the terminal action. A state with a transaction in flight is among them
by the model's choice (log entry 17, DESIGN CHOICE). -/
def Obligations.PseudoInstructionsHaveTheirMeaning : Prop :=
  ∀ s : State,
    (∀ (k : Fin 32) (x : Word),
      outcomeOf (step (present (assemble (Pseudo.expand id (.fold k x))) s)) = some (.result (x <<< k.val))) ∧
    (∀ poly : Word,
      outcomeOf (step (present (assemble (Pseudo.expand id (.scale8 poly))) s)) = some (.result (poly <<< 8))) ∧
    (∀ poly v crc : Word,
      outcomeOf (step (present (assemble (Pseudo.expand id (.step8 poly v crc))) s)) =
        some (.result (gmpy poly v ^^^ (crc <<< 8)))) ∧
    (∀ (w : BitVec 6) (x : Word), 1 ≤ w.toNat → w.toNat ≤ 32 →
      outcomeOf (step (present (assemble (Pseudo.expand id (.final w x))) s)) = some (.result (x >>> (32 - w.toNat))))

/-- Instances share nothing: a step of one leaves the others as they are, and steps of two instances can be taken in
either order (20_memory.md R43, 60_exceptions.md R103). -/
def Obligations.InstancesDoNotInteract : Prop :=
  (∀ (j k : Nat) (system next : List State), j ≠ k → stepInstance k system = some next →
    next[j]? = system[j]?) ∧
  ∀ (j k : Nat) (system : List State),
    (stepInstance j system).bind (stepInstance k) = (stepInstance k system).bind (stepInstance j)
end

