-- ==== Sys2Proof/Laws/Memory.lean ====
section
/-! SUPPORT. The canonical form of the buffer: every operation on a buffer keeps it. -/

namespace Sys2Proof.Laws

open Sys2Proof Sys2Proof.Machine

@[simp] theorem cellsWf_nil (len lo : Nat) : cellsWf len lo [] = true := rfl

theorem cellsWf_cons (len lo i : Nat) (v : Byte) (rest : List Host.Cell) :
    cellsWf len lo ((i, v) :: rest) = true ↔ lo ≤ i ∧ i < len ∧ v ≠ 0#8 ∧ cellsWf len (i + 1) rest = true := by
  simp [cellsWf, and_assoc]

/-- A canonical list stays canonical under a lower bound. -/
theorem cellsWf_mono {len lo lo' : Nat} {cells : List Host.Cell} (h : lo' ≤ lo) (hc : cellsWf len lo cells = true) :
    cellsWf len lo' cells = true := by
  cases cells with
  | nil => rfl
  | cons c rest =>
    obtain ⟨i, v⟩ := c
    rw [cellsWf_cons] at hc ⊢
    exact ⟨h.trans hc.1, hc.2⟩

/-- Listing a byte below a canonical list gives a canonical list. -/
theorem consCell_wf {len lo i : Nat} {v : Byte} {rest : List Host.Cell} (hlo : lo ≤ i) (hi : i < len)
    (hc : cellsWf len (i + 1) rest = true) : cellsWf len lo (consCell i v rest) = true := by
  unfold consCell
  split
  · exact cellsWf_mono (by omega) hc
  · exact (cellsWf_cons ..).mpr ⟨hlo, hi, ‹_›, hc⟩

/-- Replacing a byte keeps the canonical form. -/
theorem putCell_wf {len i : Nat} {v : Byte} {cells : List Host.Cell} (hi : i < len) :
    ∀ {lo : Nat}, lo ≤ i → cellsWf len lo cells = true → cellsWf len lo (putCell i v cells) = true := by
  induction cells with
  | nil => exact fun hlo _ => consCell_wf hlo hi rfl
  | cons c rest ih =>
    obtain ⟨j, u⟩ := c
    intro lo hlo hc
    have hc' := (cellsWf_cons ..).mp hc
    unfold putCell
    split
    · exact consCell_wf hlo hi ((cellsWf_cons ..).mpr ⟨‹i < j›, hc'.2⟩)
    · split
      · subst i
        exact consCell_wf hlo hi hc'.2.2.2
      · exact (cellsWf_cons ..).mpr ⟨hc'.1, hc'.2.1, hc'.2.2.1, ih (by omega) hc'.2.2.2⟩

/-- The cells of a byte list are canonical. -/
theorem cellsFrom_wf (len : Nat) (bytes : List Byte) :
    ∀ i, i + bytes.length ≤ len → cellsWf len i (cellsFrom i bytes) = true := by
  induction bytes with
  | nil => exact fun _ _ => rfl
  | cons v rest ih =>
    intro i h
    rw [List.length_cons] at h
    exact consCell_wf le_rfl (by omega) (ih (i + 1) (by omega))

/-- A host write keeps the canonical form and the length. -/
theorem write_wf {m m' : Memory} {i : Nat} {v : Byte} (h : m.wf = true) (hw : m.write i v = some m') :
    m'.wf = true ∧ m'.len = m.len := by
  unfold Memory.write at hw
  split at hw
  · cases hw
    exact ⟨putCell_wf ‹_› (Nat.zero_le i) h, rfl⟩
  · cases hw

/-- The buffer of a byte list is canonical. -/
theorem ofBytes_wf (bytes : List Byte) : (Memory.ofBytes bytes).wf = true :=
  cellsFrom_wf _ bytes 0 (by simp [Memory.ofBytes])

@[simp] theorem ofBytes_len (bytes : List Byte) : (Memory.ofBytes bytes).len = bytes.length := rfl

/-- The buffer right after reset is canonical. -/
theorem reset_buf_wf : State.reset.buf.wf = true := rfl

/-- A byte can be read exactly at the indices below LEN. -/
theorem read_eq_some_iff (m : Memory) (i : Nat) (v : Byte) :
    m.read i = some v ↔ i < m.len ∧ lookupCell i m.cells = v := by
  unfold Memory.read
  split <;> simp_all

theorem read_of_lt {m : Memory} {i : Nat} (h : i < m.len) : m.read i = some (lookupCell i m.cells) :=
  if_pos h

theorem read_of_le {m : Memory} {i : Nat} (h : m.len ≤ i) : m.read i = none :=
  if_neg (by omega)

end Sys2Proof.Laws
end

