-- ==== Sys2Proof/Laws/Operands.lean ====
section
/-! SUPPORT. The small laws of the arithmetic: one unfolding of each recursion, and the values of the helpers as numbers. -/

namespace Sys2Proof.Laws

open Sys2Proof Sys2Proof.Machine

theorem gmpyUpTo_zero (a b : Word) : gmpyUpTo a b 0 = 0#32 := rfl

theorem gmpyUpTo_succ (a b : Word) (i : Nat) :
    gmpyUpTo a b (i + 1) = if b.getLsbD i then gmpyUpTo a b i ^^^ (a <<< i) else gmpyUpTo a b i := rfl

theorem message_zero (m : Memory) : message m 0 = 0 := rfl

theorem message_succ (m : Memory) (n : Nat) : message m (n + 1) = 2 * message m n + (streamBit m n).toNat := rfl

theorem xorBelow_succ (f : Nat → Bool) (n : Nat) : xorBelow f (n + 1) = (xorBelow f n ^^ f n) := rfl

/-- The bits of a XOR-sum that agree give the same sum. -/
theorem xorBelow_congr {f g : Nat → Bool} {n : Nat} (h : ∀ i, i < n → f i = g i) : xorBelow f n = xorBelow g n := by
  induction n with
  | zero => rfl
  | succ n ih => rw [xorBelow_succ, xorBelow_succ, ih fun i hi => h i (by omega), h n (by omega)]

/-- The message of `n` bits is below 2^n. -/
theorem message_lt (m : Memory) (n : Nat) : message m n < 2 ^ n := by
  induction n with
  | zero => simp [message_zero]
  | succ n ih =>
    rw [message_succ, Nat.pow_succ]
    have := Bool.toNat_le (streamBit m n)
    omega

/-- A right-aligned chunk as a number. -/
theorem alignByte_toNat (k : Nat) (v : Byte) : (alignByte k v).toNat = v.toNat / 2 ^ (8 - k) := by
  have h : v.toNat / 2 ^ (8 - k) ≤ v.toNat := Nat.div_le_self _ _
  rw [alignByte, BitVec.toNat_setWidth, BitVec.toNat_ushiftRight, Nat.shiftRight_eq_div_pow, Nat.mod_eq_of_lt]
  have := v.isLt
  omega

/-- A right-aligned chunk of `k` bits is below 2^k. -/
theorem alignByte_lt {k : Nat} (hk : k ≤ 8) (v : Byte) : (alignByte k v).toNat < 2 ^ k := by
  rw [alignByte_toNat, Nat.div_lt_iff_lt_mul (Nat.two_pow_pos _), ← Nat.pow_add, show k + (8 - k) = 8 by omega]
  exact v.isLt

/-- All eight bits of a byte are the byte. -/
theorem alignByte_eight (v : Byte) : alignByte 8 v = v.setWidth 32 := by
  simp [alignByte]

/-- A result of `w` bits is below 2^w. -/
theorem outShift_lt {w : Nat} (hw : w ≤ 32) (x : Word) : (outShift w x).toNat < 2 ^ w := by
  rw [outShift, BitVec.toNat_ushiftRight, Nat.shiftRight_eq_div_pow, Nat.div_lt_iff_lt_mul (Nat.two_pow_pos _),
    ← Nat.pow_add, show w + (32 - w) = 32 by omega]
  exact x.isLt

/-- Every bit of N is in a full byte or left over. -/
theorem bits_eq_bytes_and_rest (n : Word) : n.toNat = 8 * fullBytes n + leftoverBits n :=
  (Nat.div_add_mod n.toNat 8).symm

theorem leftoverBits_lt (n : Word) : leftoverBits n < 8 :=
  Nat.mod_lt _ (by decide)

end Sys2Proof.Laws
end

