-- ==== Sys2Proof/Laws/State.lean ====
section
/-! SUPPORT. What each update of the state leaves in each field, so that no proof unfolds a record update. -/

namespace Sys2Proof.Laws

open Sys2Proof.Machine

@[simp] theorem issue_inFlight (s : State) : (issue s).inFlight = true := rfl
@[simp] theorem issue_cmd (s : State) : (issue s).cmd = s.cmd := rfl
@[simp] theorem issue_a (s : State) : (issue s).a = s.a := rfl
@[simp] theorem issue_b (s : State) : (issue s).b = s.b := rfl
@[simp] theorem issue_c (s : State) : (issue s).c = s.c := rfl
@[simp] theorem issue_n (s : State) : (issue s).n = s.n := rfl
@[simp] theorem issue_buf (s : State) : (issue s).buf = s.buf := rfl
@[simp] theorem issue_engine (s : State) : (issue s).engine = none := rfl
@[simp] theorem issue_response (s : State) : (issue s).response = none := rfl

@[simp] theorem respond_inFlight (o : Response) (s : State) : (respond o s).inFlight = false := rfl
@[simp] theorem respond_cmd (o : Response) (s : State) : (respond o s).cmd = s.cmd := rfl
@[simp] theorem respond_a (o : Response) (s : State) : (respond o s).a = s.a := rfl
@[simp] theorem respond_b (o : Response) (s : State) : (respond o s).b = s.b := rfl
@[simp] theorem respond_c (o : Response) (s : State) : (respond o s).c = s.c := rfl
@[simp] theorem respond_n (o : Response) (s : State) : (respond o s).n = s.n := rfl
@[simp] theorem respond_buf (o : Response) (s : State) : (respond o s).buf = s.buf := rfl
@[simp] theorem respond_engine (o : Response) (s : State) : (respond o s).engine = none := rfl
@[simp] theorem respond_response (o : Response) (s : State) : (respond o s).response = some o := rfl

@[simp] theorem resetBlock_inFlight (s : State) : (resetBlock s).inFlight = false := rfl
@[simp] theorem resetBlock_cmd (s : State) : (resetBlock s).cmd = s.cmd := rfl
@[simp] theorem resetBlock_a (s : State) : (resetBlock s).a = s.a := rfl
@[simp] theorem resetBlock_b (s : State) : (resetBlock s).b = s.b := rfl
@[simp] theorem resetBlock_c (s : State) : (resetBlock s).c = s.c := rfl
@[simp] theorem resetBlock_n (s : State) : (resetBlock s).n = s.n := rfl
@[simp] theorem resetBlock_buf (s : State) : (resetBlock s).buf = s.buf := rfl
@[simp] theorem resetBlock_engine (s : State) : (resetBlock s).engine = none := rfl
@[simp] theorem resetBlock_response (s : State) : (resetBlock s).response = none := rfl

@[simp] theorem startByteEngine_inFlight (s : State) : (startByteEngine s).inFlight = s.inFlight := rfl
@[simp] theorem startByteEngine_cmd (s : State) : (startByteEngine s).cmd = s.cmd := rfl
@[simp] theorem startByteEngine_a (s : State) : (startByteEngine s).a = s.a := rfl
@[simp] theorem startByteEngine_b (s : State) : (startByteEngine s).b = s.b := rfl
@[simp] theorem startByteEngine_c (s : State) : (startByteEngine s).c = s.c := rfl
@[simp] theorem startByteEngine_n (s : State) : (startByteEngine s).n = s.n := rfl
@[simp] theorem startByteEngine_buf (s : State) : (startByteEngine s).buf = s.buf := rfl
@[simp] theorem startByteEngine_engine (s : State) : (startByteEngine s).engine = some { crc := s.b, pos := 0, scale8 := none } := rfl
@[simp] theorem startByteEngine_response (s : State) : (startByteEngine s).response = s.response := rfl

@[simp] theorem startWordEngine_inFlight (s : State) : (startWordEngine s).inFlight = s.inFlight := rfl
@[simp] theorem startWordEngine_cmd (s : State) : (startWordEngine s).cmd = s.cmd := rfl
@[simp] theorem startWordEngine_a (s : State) : (startWordEngine s).a = s.a := rfl
@[simp] theorem startWordEngine_b (s : State) : (startWordEngine s).b = s.b := rfl
@[simp] theorem startWordEngine_c (s : State) : (startWordEngine s).c = s.c := rfl
@[simp] theorem startWordEngine_n (s : State) : (startWordEngine s).n = s.n := rfl
@[simp] theorem startWordEngine_buf (s : State) : (startWordEngine s).buf = s.buf := rfl
@[simp] theorem startWordEngine_engine (s : State) : (startWordEngine s).engine = some { crc := s.b, pos := 0, scale8 := some (scaleByEight s.a) } := rfl
@[simp] theorem startWordEngine_response (s : State) : (startWordEngine s).response = s.response := rfl

@[simp] theorem withFetchWord_inFlight (s : State) (nbits w : Nat) : (s.withFetchWord nbits w).inFlight = true := rfl
@[simp] theorem withFetchWord_cmd (s : State) (nbits w : Nat) : (s.withFetchWord nbits w).cmd = BitVec.ofNat 32 w := rfl
@[simp] theorem withFetchWord_a (s : State) (nbits w : Nat) : (s.withFetchWord nbits w).a = s.a := rfl
@[simp] theorem withFetchWord_b (s : State) (nbits w : Nat) : (s.withFetchWord nbits w).b = s.b := rfl
@[simp] theorem withFetchWord_c (s : State) (nbits w : Nat) : (s.withFetchWord nbits w).c = s.c := rfl
@[simp] theorem withFetchWord_n (s : State) (nbits w : Nat) : (s.withFetchWord nbits w).n = s.n := rfl
@[simp] theorem withFetchWord_buf (s : State) (nbits w : Nat) : (s.withFetchWord nbits w).buf = s.buf := rfl
@[simp] theorem withFetchWord_engine (s : State) (nbits w : Nat) : (s.withFetchWord nbits w).engine = none := rfl
@[simp] theorem withFetchWord_response (s : State) (nbits w : Nat) : (s.withFetchWord nbits w).response = none := rfl

@[simp] theorem present_inFlight (t : Transaction) (s : State) : (present t s).inFlight = true := rfl
@[simp] theorem present_cmd (t : Transaction) (s : State) : (present t s).cmd = t.cmd := rfl
@[simp] theorem present_a (t : Transaction) (s : State) : (present t s).a = t.a := rfl
@[simp] theorem present_b (t : Transaction) (s : State) : (present t s).b = t.b := rfl
@[simp] theorem present_c (t : Transaction) (s : State) : (present t s).c = t.c := rfl
@[simp] theorem present_n (t : Transaction) (s : State) : (present t s).n = t.n := rfl
@[simp] theorem present_buf (t : Transaction) (s : State) : (present t s).buf = Memory.ofBytes t.bytes := rfl
@[simp] theorem present_engine (t : Transaction) (s : State) : (present t s).engine = none := rfl
@[simp] theorem present_response (t : Transaction) (s : State) : (present t s).response = none := rfl

end Sys2Proof.Laws
end

