-- ==== Sys2Proof/Laws/Ops.lean ====
section
/-! SUPPORT. One law for each shared operation, which says once everything it can do. -/

namespace Sys2Proof.Laws

open Sys2Proof Sys2Proof.Machine

@[simp] theorem andThen_next (s : State) (f : State → Result) : andThen (.next s) f = f s := rfl

@[simp] theorem andThen_fault (r : Fault) (f : State → Result) : andThen (.fault r) f = .fault r := rfl

/-- A sequence gives a next state exactly where both parts do. -/
theorem andThen_eq_next_iff (o : Result) (f : State → Result) (t : State) :
    andThen o f = .next t ↔ ∃ s, o = .next s ∧ f s = .next t := by
  cases o <;> simp [andThen]

/-- The result of a transaction, as the whole next state. -/
theorem deliver_eq (r : Word) (s : State) :
    deliver r s = .next { s with inFlight := false, engine := none, response := some (.result r) } := rfl

/-- A fault of a transaction, as the whole next state. -/
theorem raiseFault_eq (code : FaultCode) (s : State) :
    raiseFault code s = .next { s with inFlight := false, engine := none, response := some (.fault code) } := rfl

theorem withEngine_of_some {s : State} {e : Engine} (h : s.engine = some e) (f : Engine → Result) :
    withEngine s f = f e := by
  simp [withEngine, h]

theorem withByte_of_lt {s : State} {i : Nat} (h : i < s.buf.len) (f : Byte → Result) :
    withByte s i f = f (lookupCell i s.buf.cells) := by
  simp [withByte, read_of_lt h]

theorem withByte_of_le {s : State} {i : Nat} (h : s.buf.len ≤ i) (f : Byte → Result) :
    withByte s i f = .fault (.readBeyondBuffer i) := by
  simp [withByte, read_of_le h]

/-- A transition on a byte of the buffer. -/
theorem chunkStep_of_lt {s : State} {e : Engine} (he : s.engine = some e) {skip : Nat} (k : Nat)
    (h : e.pos + skip < s.buf.len) :
    chunkStep skip k s = .next { s with engine := some { e with
      crc := transition s.a (alignByte k (lookupCell (e.pos + skip) s.buf.cells)) e.crc k
      pos := e.pos + skip + 1 } } := by
  rw [chunkStep, withEngine_of_some he, withByte_of_lt h]

/-- A transition on a byte beyond the buffer stops. -/
theorem chunkStep_of_le {s : State} {e : Engine} (he : s.engine = some e) {skip : Nat} (k : Nat)
    (h : s.buf.len ≤ e.pos + skip) : chunkStep skip k s = .fault (.readBeyondBuffer (e.pos + skip)) := by
  rw [chunkStep, withEngine_of_some he, withByte_of_le h]

/-- A full-word transition on two bytes of the buffer. -/
theorem wordStep_of_lt {s : State} {e : Engine} {scale8 : Word} (he : s.engine = some e) (hs : e.scale8 = some scale8)
    (h : e.pos + 1 < s.buf.len) :
    wordStep s = .next { s with engine := some { e with
      crc := wordTransition s.a scale8 e.crc (lookupCell e.pos s.buf.cells) (lookupCell (e.pos + 1) s.buf.cells)
      pos := e.pos + 2 } } := by
  rw [wordStep, withEngine_of_some he, withByte_of_lt (by omega), withByte_of_lt h]
  simp [hs]

/-- Everything a byte transition can do where it gives a next state: only the working values change. -/
theorem chunkStep_next {skip k : Nat} {s t : State} (h : chunkStep skip k s = .next t) :
    ∃ e v, s.engine = some e ∧ s.buf.read (e.pos + skip) = some v ∧
      t = { s with engine := some { e with crc := transition s.a (alignByte k v) e.crc k, pos := e.pos + skip + 1 } } := by
  rcases he : s.engine with _ | e
  · simp [chunkStep, withEngine, he] at h
  · rcases hv : s.buf.read (e.pos + skip) with _ | v
    · simp [chunkStep, withEngine, withByte, he, hv] at h
    · exact ⟨e, v, rfl, hv, by simpa [chunkStep, withEngine, withByte, he, hv] using h.symm⟩

/-- Everything a full-word transition can do where it gives a next state: only the working values change. -/
theorem wordStep_next {s t : State} (h : wordStep s = .next t) :
    ∃ e b0 b1 scale8, s.engine = some e ∧ s.buf.read e.pos = some b0 ∧ s.buf.read (e.pos + 1) = some b1 ∧
      e.scale8 = some scale8 ∧
      t = { s with engine := some { e with crc := wordTransition s.a scale8 e.crc b0 b1, pos := e.pos + 2 } } := by
  rcases he : s.engine with _ | e
  · simp [wordStep, withEngine, he] at h
  · rcases h0 : s.buf.read e.pos with _ | b0
    · simp [wordStep, withEngine, withByte, he, h0] at h
    · rcases h1 : s.buf.read (e.pos + 1) with _ | b1
      · simp [wordStep, withEngine, withByte, he, h0, h1] at h
      · rcases h8 : e.scale8 with _ | scale8
        · simp [wordStep, withEngine, withByte, he, h0, h1, h8] at h
        · exact ⟨e, b0, b1, scale8, rfl, h0, h1, h8, by
            simpa [wordStep, withEngine, withByte, he, h0, h1, h8] using h.symm⟩

@[simp] theorem repeatStep_zero (f : State → Result) (s : State) : repeatStep f 0 s = .next s := rfl

theorem repeatStep_succ (f : State → Result) (j : Nat) (s : State) :
    repeatStep f (j + 1) s = andThen (f s) (repeatStep f j) := rfl

/-- Doing `f` once more at the end. -/
theorem repeatStep_succ_last (f : State → Result) (j : Nat) (s : State) :
    repeatStep f (j + 1) s = andThen (repeatStep f j s) f := by
  induction j generalizing s with
  | zero => rw [repeatStep_succ, repeatStep_zero, andThen_next]; cases f s <;> rfl
  | succ j ih =>
    rw [repeatStep_succ, repeatStep_succ]
    cases h : f s <;> simp [andThen, ih]

/-- What `f` keeps, doing it any number of times keeps. -/
theorem repeatStep_keeps {f : State → Result} {P : State → Prop} (hf : ∀ s t, P s → f s = .next t → P t) (j : Nat)
    {s t : State} (hs : P s) (h : repeatStep f j s = .next t) : P t := by
  induction j generalizing s with
  | zero => cases h; exact hs
  | succ j ih =>
    rw [repeatStep_succ, andThen_eq_next_iff] at h
    obtain ⟨u, hu, h⟩ := h
    exact ih (hf s u hs hu) h

/-- The final step of a CRC command. -/
theorem emit_of_some {s : State} {e : Engine} (he : s.engine = some e) (w : BitVec 6) :
    emit w s = deliver (outShift w.toNat e.crc) s := by
  rw [emit, withEngine_of_some he]

/-- Everything a CRC command can do: it faults on its width, then on its bit count, and otherwise runs its engine. -/
theorem crcCommand_cases (w : BitVec 6) (run : State → Result) (s : State) :
    (¬(1 ≤ w.toNat ∧ w.toNat ≤ 32) ∧ crcCommand w run s = raiseFault .badWidth s) ∨
    ((1 ≤ w.toNat ∧ w.toNat ≤ 32) ∧ 8 * s.buf.len < s.n.toNat ∧ crcCommand w run s = raiseFault .badBitCount s) ∨
    ((1 ≤ w.toNat ∧ w.toNat ≤ 32) ∧ s.n.toNat ≤ 8 * s.buf.len ∧ crcCommand w run s = andThen (run s) (emit w)) := by
  unfold crcCommand widthOk bitCountOk
  by_cases hw : 1 ≤ w.toNat ∧ w.toNat ≤ 32
  · by_cases hn : s.n.toNat ≤ 8 * s.buf.len
    · exact .inr (.inr ⟨hw, hn, by simp [hw, hn]⟩)
    · exact .inr (.inl ⟨hw, by omega, by simp [hw, hn]⟩)
  · exact .inl ⟨hw, by simp [hw]⟩

/-- Everything a step can do first: nothing is in flight, or the command word is decoded. -/
theorem fetch_cases (s : State) :
    (s.inFlight = false ∧ fetch s = none) ∨ (s.inFlight = true ∧ fetch s = some (decode s.cmd)) := by
  unfold fetch
  cases s.inFlight <;> simp

end Sys2Proof.Laws
end

