-- ==== Sys2Proof/Laws/PerInstr.lean ====
section
/-! SUPPORT. What holds of every command as syntax, one lemma a constructor: the command word's OP names one of the seven
operations, and its reserved bits CMD[31:14] are zero (30_encoding.md R48, R49). -/

namespace Sys2Proof.Laws

/-- The word of a command has an operation of the opcode map and no reserved bit. -/
def EncodedFields.Statement (i : Instr) : Prop :=
  (opField (encode i)).toNat < 7 ∧ (encode i).extractLsb' 14 18 = 0#18

theorem EncodedFields.gmpy : EncodedFields.Statement .gmpy := by
  unfold EncodedFields.Statement; decide

theorem EncodedFields.crcb (w : BitVec 6) : EncodedFields.Statement (.crcb w) := by
  revert w; unfold EncodedFields.Statement; decide

theorem EncodedFields.crcw (w : BitVec 6) : EncodedFields.Statement (.crcw w) := by
  revert w; unfold EncodedFields.Statement; decide

theorem EncodedFields.step (k : BitVec 4) : EncodedFields.Statement (.step k) := by
  revert k; unfold EncodedFields.Statement; decide

theorem EncodedFields.step16 : EncodedFields.Statement .step16 := by
  unfold EncodedFields.Statement; decide

theorem EncodedFields.align (k : BitVec 4) : EncodedFields.Statement (.align k) := by
  revert k; unfold EncodedFields.Statement; decide

theorem EncodedFields.oshift (w : BitVec 6) : EncodedFields.Statement (.oshift w) := by
  revert w; unfold EncodedFields.Statement; decide

end Sys2Proof.Laws
end

