-- ==== Sys2Proof/Tests/Slice0.lean ====
section
/-! SUPPORT. The model's own tests. Expected values come from spec/95_test_vectors.md and from the encodings of
spec/30_encoding.md; each comment names the row. The second half shows, for each statement with hypotheses, a concrete
state and operands that meet them. -/

namespace Sys2Proof.Tests

open Sys2Proof Sys2Proof.Machine

/-- A transaction in flight with these inputs. -/
def tx (cmd a b c n : Word) (bytes : List Byte) : State :=
  present { cmd := cmd, a := a, b := b, c := c, n := n, bytes := bytes } State.reset

/-- The whole next state, as a test. -/
def isNext (r : Result) (t : State) : Bool :=
  match r with
  | .next s => s == t
  | .fault _ => false
  | .refused _ => false

theorem eq_of_isNext {r : Result} {t : State} (h : isNext r t = true) : r = .next t := by
  cases r <;> simp_all [isNext]

/-! ## Decoding: words written out from R50's bit patterns, fields from R54 -/

theorem test_decode_gmpy : decode 0b00000000000000000000000000000000#32 = .instr .gmpy := by decide
theorem test_decode_crcb : decode 0b00000000000000000000000110000001#32 = .instr (.crcb 24#6) := by decide
theorem test_decode_crcw : decode 0b00000000000000000000001000000010#32 = .instr (.crcw 32#6) := by decide
theorem test_decode_step : decode 0b00000000000000000001010000000011#32 = .instr (.step 5#4) := by decide
theorem test_decode_step16 : decode 0b00000000000000000000000000000100#32 = .instr .step16 := by decide
theorem test_decode_align : decode 0b00000000000000000010000000000101#32 = .instr (.align 8#4) := by decide
theorem test_decode_oshift : decode 0b00000000000000000000000000010110#32 = .instr (.oshift 1#6) := by decide

/-- 95 section 6: OP = 7 wins over the set field bits; each unused field and the lowest and highest reserved bits. -/
theorem test_decode_rejects :
    decode 0x00000817#32 = .illegalOp ∧ decode 0x0000000F#32 = .illegalOp ∧
    decode 0x00000010#32 = .reservedField ∧ decode 0x00004001#32 = .reservedField ∧
    decode 0x00000404#32 = .reservedField ∧ decode 0x00002083#32 = .reservedField ∧
    decode 0x80000086#32 = .reservedField := by decide

/-- The CMD column of 95 sections 3 and 4. -/
theorem test_encode_words :
    encode (.step 8#4) = 0x00002003#32 ∧ encode (.align 3#4) = 0x00000C05#32 ∧ encode (.oshift 32#6) = 0x00000206#32 ∧
    encode (.crcb 24#6) = 0x181#32 ∧ encode (.crcw 24#6) = 0x182#32 := by decide

theorem test_decodeTableWord :
    decodeTableWord 32 0x86 = some (.oshift 8#6) ∧ decodeTableWord 32 0x87 = none ∧
    decodeTableWord 32 0x100000000 = none := by decide

/-! ## WellFormed: an ill-formed term for each check, and the boundary values that pass -/

theorem test_wellFormed_refuses :
    Instr.wellFormed (.crcb 0#6) = false ∧ Instr.wellFormed (.crcb 33#6) = false ∧
    Instr.wellFormed (.crcw 0#6) = false ∧ Instr.wellFormed (.crcw 33#6) = false ∧
    Instr.wellFormed (.oshift 0#6) = false ∧ Instr.wellFormed (.oshift 63#6) = false ∧
    Instr.wellFormed (.step 0#4) = false ∧ Instr.wellFormed (.step 9#4) = false ∧
    Instr.wellFormed (.align 0#4) = false ∧ Instr.wellFormed (.align 15#4) = false := by decide

theorem test_wellFormed_accepts :
    Instr.wellFormed (.crcb 1#6) = true ∧ Instr.wellFormed (.crcw 32#6) = true ∧ Instr.wellFormed (.oshift 32#6) = true ∧
    Instr.wellFormed (.step 1#4) = true ∧ Instr.wellFormed (.align 8#4) = true := by decide

/-! ## One step of each command -/

/-- 95 section 2, "general". -/
theorem test_gmpy_general : outcomeOf (step (tx 0x0#32 0x12345678#32 0x9ABCDEF0#32 0#32 0#32 [])) =
    some (.result 0x5CD25A80#32) := by decide

/-- 95 section 2, the product bits beyond 31 are discarded. -/
theorem test_gmpy_truncates : outcomeOf (step (tx 0x0#32 0xFFFFFFFF#32 0xFFFFFFFF#32 0#32 0#32 [])) =
    some (.result 0x55555555#32) := by decide

/-- V-B15: a non-zero initial condition. -/
theorem test_crcb_init : outcomeOf (step (tx 0x201#32 0x9B000000#32 0x12345678#32 0#32 24#32 [0xA5, 0x3C, 0xF0])) =
    some (.result 0xE8000000#32) := by decide

/-- V-B26: a partial byte, and a fourth byte that is not read. -/
theorem test_crcb_partial : outcomeOf (step (tx 0x201#32 0x9B000000#32 0#32 0#32 21#32 [0xA5, 0x3C, 0xF0, 0x0F])) =
    some (.result 0xB2000000#32) := by decide

/-- V-B16 as CRCW: a word, the extra byte and a partial byte (tail case A). -/
theorem test_crcw_tailA : outcomeOf (step (tx 0x182#32 0x864CFB00#32 0#32 0#32 28#32 [0xA5, 0x3C, 0xF0, 0x0F])) =
    some (.result 0x00BF7900#32) := by decide

/-- V-B26 as CRCW: tail case B reads IN[2]. -/
theorem test_crcw_tailB : outcomeOf (step (tx 0x202#32 0x9B000000#32 0#32 0#32 21#32 [0xA5, 0x3C, 0xF0, 0x0F])) =
    some (.result 0xB2000000#32) := by decide

/-- 95 section 3: K = 5. -/
theorem test_step_five : outcomeOf (step (tx 0x1403#32 0x9B000000#32 0x1F#32 0x12345678#32 0#32 [])) =
    some (.result 0xEF8ACF00#32) := by decide

/-- 95 section 3: a chunk value of 9 bits (D26). -/
theorem test_step_wide_chunk : outcomeOf (step (tx 0x2003#32 0x9B000000#32 0x1FF#32 0#32 0#32 [])) =
    some (.result 0x89000000#32) := by decide

/-- 95 section 5: the first two bytes of V-B21. -/
theorem test_step16_order : outcomeOf (step (tx 0x4#32 0x10210000#32 0x3231#32 0xFFFF0000#32 0#32 [])) =
    some (.result 0x37720000#32) := by decide

/-- 95 section 5: B[31:16] ignored. -/
theorem test_step16_ignores : outcomeOf (step (tx 0x4#32 0x9B000000#32 0xFFFF3CA5#32 0#32 0#32 [])) =
    some (.result 0x64000000#32) := by decide

/-- 95 section 3: B[31:8] ignored. -/
theorem test_align_ignores : outcomeOf (step (tx 0xC05#32 0#32 0x1A5#32 0#32 0#32 [])) =
    some (.result 0x5#32) := by decide

/-- 95 section 3: K = 8 returns the byte. -/
theorem test_align_whole : outcomeOf (step (tx 0x2005#32 0#32 0xA5#32 0#32 0#32 [])) =
    some (.result 0xA5#32) := by decide

/-- 95 section 3: the shift is logical (C2). -/
theorem test_oshift_logical : outcomeOf (step (tx 0x16#32 0x80000000#32 0#32 0#32 0#32 [])) =
    some (.result 0x1#32) := by decide

/-- 95 section 3: W = 32 returns A. -/
theorem test_oshift_whole : outcomeOf (step (tx 0x206#32 0xDEADBEEF#32 0#32 0#32 0#32 [])) =
    some (.result 0xDEADBEEF#32) := by decide

/-! ## Faults, the other tail offset, a program's lines, the first command after reset -/

/-- 95 section 6: `BAD_WIDTH` first where the bit count is bad too, then the bit count. -/
theorem test_fault_priority :
    outcomeOf (step (tx 0x01#32 0#32 0#32 0#32 9#32 [0])) = some (.fault .badWidth) ∧
    outcomeOf (step (tx 0x81#32 0#32 0#32 0#32 9#32 [0])) = some (.fault .badBitCount) ∧
    outcomeOf (step (tx 0x82#32 0#32 0#32 0#32 17#32 [0, 0])) = some (.fault .badBitCount) ∧
    outcomeOf (step (tx 0x2403#32 0#32 0#32 0#32 0#32 [])) = some (.fault .badChunk) ∧
    outcomeOf (step (tx 0x211#32 0#32 0#32 0#32 0#32 [])) = some (.fault .badWidth) := by decide

/-- 95 section 5, the alternative offset: [0xF8, 0x55] with N = 5 gives the register 0xEE000000, not 0xA9000000. -/
theorem test_other_tail_offset :
    isNext (andThen (runWordEngine 1 (tx 0x202#32 0x9B000000#32 0#32 0#32 5#32 [0xF8, 0x55])) (emit 32#6))
      (respond (.result 0xEE000000#32) (tx 0x202#32 0x9B000000#32 0#32 0#32 5#32 [0xF8, 0x55])) = true := by decide

/-- 95 section 9, P1, lines 1 and 2: a named result as an operand. -/
theorem test_program_names_a_result :
    runProgram State.reset []
      [.step 8#4 (.value 0x9B000000#32) (.value 0xA5#32) (.value 0#32),
       .step 8#4 (.value 0x9B000000#32) (.value 0x3C#32) (.named 0)] =
      some [.result 0x17000000#32, .result 0x64000000#32] := by decide

/-- The host's command word runs as the first command after reset. -/
theorem test_withFetchWord :
    outcomeOf (step (State.reset.withFetchWord 32 0x81)) = some (.result 0#32) ∧
    outcomeOf (step (State.reset.withFetchWord 32 0x7)) = some (.fault .illegalOp) := by decide

/-! ## Witnesses: a state and operands that meet each statement's hypotheses -/

/-- The nine bytes of V-B21, as a buffer. -/
def digits : List Byte := [0x31, 0x32, 0x33, 0x34, 0x35, 0x36, 0x37, 0x38, 0x39]

theorem witness_EncodeOfDecodedGivesTheWord :
    decode 0x000003F6#32 = .instr (.oshift 63#6) ∧ decode 0x00003C03#32 = .instr (.step 15#4) := by decide

theorem witness_OpcodesFromSevenFaultIllegal :
    (tx 0x7#32 0 0 0 0 []).inFlight = true ∧ 7 ≤ ((tx 0x7#32 0 0 0 0 []).cmd.extractLsb' 0 4).toNat ∧
    7 ≤ ((tx 0xFFFFFFFF#32 0 0 0 0 []).cmd.extractLsb' 0 4).toNat ∧
    decode (tx 0x16#32 0 0 0 0 []).cmd = .instr (.oshift 1#6) := by decide

theorem witness_StepRunsTheDecodedCommand :
    (tx 0x2005#32 0 0 0 0 []).inFlight = true ∧ decode (tx 0x2005#32 0 0 0 0 []).cmd = .instr (.align 8#4) := by decide

theorem witness_PresentedWordRunsNext :
    decodeTableWord 32 0x81 = some (.crcb 8#6) ∧ decodeTableWord 32 0x0 = some .gmpy := by decide

theorem witness_StepReportsDecodeFaults :
    (tx 0x7#32 0 0 0 0 []).inFlight = true ∧ decode (tx 0x7#32 0 0 0 0 []).cmd = .illegalOp ∧
    (tx 0x10#32 0 0 0 0 []).inFlight = true ∧ decode (tx 0x10#32 0 0 0 0 []).cmd = .reservedField := by decide

theorem witness_IdleStepChangesNothing : State.reset.inFlight = false := by decide

/-- The second state differs in the working values and the outcome. -/
theorem witness_OutcomeIsAFunctionOfTheInputs :
    let s := tx 0x81#32 0x9B000000#32 0 0 8#32 [0xFF]
    let s' : State := { s with engine := some { crc := 1#32, pos := 5, scale8 := none }, response := some (.result 7#32) }
    s.inFlight = true ∧ s'.inFlight = true ∧ s'.cmd = s.cmd ∧ s'.a = s.a ∧ s'.b = s.b ∧ s'.c = s.c ∧ s'.n = s.n ∧
    s'.buf = s.buf ∧ s' ≠ s := by decide

/-- Each code of R95 at a boundary value, where a later fault applies too, and a transaction with none. -/
theorem witness_FirstApplicableFaultIsReported :
    (tx 0x817#32 0 0 0 0 []).inFlight = true ∧ firstFault (tx 0x817#32 0 0 0 0 []) = some .illegalOp ∧
    firstFault (tx 0x4001#32 0 0 0 9#32 [0]) = some .reservedField ∧
    firstFault (tx 0x211#32 0 0 0 9#32 [0]) = some .badWidth ∧ firstFault (tx 0x6#32 0 0 0 0 []) = some .badWidth ∧
    firstFault (tx 0x2403#32 0 0 0 0 []) = some .badChunk ∧ firstFault (tx 0x5#32 0 0 0 0 []) = some .badChunk ∧
    firstFault (tx 0x202#32 0 0 0 9#32 [0]) = some .badBitCount ∧
    firstFault (tx 0x201#32 0 0 0 8#32 [0]) = none := by decide

theorem witness_GmpyDeliversTheTruncatedProduct : 0 < 32 ∧ 31 < 32 := by decide

theorem witness_GmpyIsTheTruncatedPolynomialRing :
    0 < 32 ∧ 31 < 32 ∧ (0#32 : Word).toNat % 2 = 0 ∧ (0xFFFFFFFE#32 : Word).toNat % 2 = 0 := by decide

theorem witness_StepDeliversTheTransition :
    1 ≤ (1#4 : BitVec 4).toNat ∧ (1#4 : BitVec 4).toNat ≤ 8 ∧ 1 ≤ (8#4 : BitVec 4).toNat ∧ (8#4 : BitVec 4).toNat ≤ 8 := by
  decide

theorem witness_AlignDeliversTheTopBits :
    1 ≤ (1#4 : BitVec 4).toNat ∧ (1#4 : BitVec 4).toNat ≤ 8 ∧ 1 ≤ (8#4 : BitVec 4).toNat ∧ (8#4 : BitVec 4).toNat ≤ 8 := by
  decide

theorem witness_OshiftDeliversTheTopBits :
    1 ≤ (1#6 : BitVec 6).toNat ∧ (1#6 : BitVec 6).toNat ≤ 32 ∧ 1 ≤ (32#6 : BitVec 6).toNat ∧
    (32#6 : BitVec 6).toNat ≤ 32 := by decide

/-- W = 1 and W = 32; N = 8 * LEN, and N = 0 with LEN = 0. -/
theorem witness_CrcbDeliversTheClosedForm :
    1 ≤ (1#6 : BitVec 6).toNat ∧ (32#6 : BitVec 6).toNat ≤ 32 ∧
    (tx 0x201#32 0 0 0 72#32 digits).n.toNat ≤ 8 * (tx 0x201#32 0 0 0 72#32 digits).buf.len ∧
    (tx 0x11#32 0 0 0 0 []).n.toNat ≤ 8 * (tx 0x11#32 0 0 0 0 []).buf.len := by decide

theorem witness_CrcwDeliversTheClosedForm :
    1 ≤ (1#6 : BitVec 6).toNat ∧ (32#6 : BitVec 6).toNat ≤ 32 ∧
    (tx 0x202#32 0 0 0 72#32 digits).n.toNat ≤ 8 * (tx 0x202#32 0 0 0 72#32 digits).buf.len ∧
    (tx 0x12#32 0 0 0 0 []).n.toNat ≤ 8 * (tx 0x12#32 0 0 0 0 []).buf.len := by decide

theorem witness_ZeroLengthInputShiftsTheInitialCondition :
    1 ≤ (1#6 : BitVec 6).toNat ∧ (32#6 : BitVec 6).toNat ≤ 32 ∧ (tx 0x81#32 0 0xDEADBEEF#32 0 0#32 [0xFF]).n = 0#32 := by
  decide

/-- V-B2 with both engines; the bits from W = 8 to 31. -/
theorem witness_CrcResultsOccupyTheLowWidthBits :
    let s := tx 0x81#32 0x9B000000#32 0#32 0#32 8#32 [0xFF]
    exec (.crcb 8#6) s = .next (respond (.result 0x89#32) s) ∧ exec (.crcw 8#6) s = .next (respond (.result 0x89#32) s) ∧
    (respond (.result 0x89#32) s).response = some (.result 0x89#32) ∧ (8#6 : BitVec 6).toNat ≤ 8 ∧
    (8#6 : BitVec 6).toNat ≤ 31 :=
  ⟨eq_of_isNext (by decide), eq_of_isNext (by decide), rfl, by decide, by decide⟩

/-- N = 40: the first byte and B differ; and N = 16: the same buffer bits, a byte beyond N differs. -/
theorem witness_OnlyTheLastThirtyTwoStreamBitsMatter :
    (let s := tx 0x201#32 1#32 5#32 0 40#32 [0xFF, 1, 2, 3, 4]
     let s' := tx 0x201#32 1#32 6#32 0 40#32 [0x00, 1, 2, 3, 4]
     s'.a = s.a ∧ s'.n = s.n ∧ (s.n.toNat < 32 → s'.b = s.b) ∧ s.n.toNat ≤ 8 * s.buf.len ∧ s.n.toNat ≤ 8 * s'.buf.len ∧
     (∀ q, q < s.n.toNat → s.n.toNat ≤ q + 32 → streamBit s'.buf q = streamBit s.buf q)) ∧
    (let s := tx 0x201#32 1#32 5#32 0 12#32 [0xAB, 0xC0]
     let s' := tx 0x201#32 1#32 5#32 0 12#32 [0xAB, 0xCF, 9]
     s'.a = s.a ∧ s'.n = s.n ∧ (s.n.toNat < 32 → s'.b = s.b) ∧ s.n.toNat ≤ 8 * s.buf.len ∧ s.n.toNat ≤ 8 * s'.buf.len ∧
     (∀ q, q < s.n.toNat → s.n.toNat ≤ q + 32 → streamBit s'.buf q = streamBit s.buf q)) := by decide

theorem witness_CrcbIsLinearInTheMessage :
    let s := tx 0x201#32 1#32 0#32 0 12#32 []
    s.b = 0#32 ∧ s.n.toNat ≤ 8 * (Memory.ofBytes [0xA5, 0xF0]).len ∧ s.n.toNat ≤ 8 * (Memory.ofBytes [0x3C, 0x30]).len ∧
    s.n.toNat ≤ 8 * (Memory.ofBytes [0x99, 0xC0]).len ∧
    ∀ q, q < s.n.toNat → streamBit (Memory.ofBytes [0x99, 0xC0]) q =
      (streamBit (Memory.ofBytes [0xA5, 0xF0]) q ^^ streamBit (Memory.ofBytes [0x3C, 0x30]) q) := by decide

/-- 95 section 8, and the edge N2 = 0. -/
theorem witness_CrcbChainsOverAByteBoundary :
    8 * ([0x31, 0x32, 0x33, 0x34] : List Byte).length + 40 < 2 ^ 32 ∧
    40 ≤ 8 * ([0x35, 0x36, 0x37, 0x38, 0x39] : List Byte).length ∧
    8 * ([0x31] : List Byte).length + 0 < 2 ^ 32 ∧ 0 ≤ 8 * ([] : List Byte).length := by decide

/-- Flips at d = 7 and d = 8 (R74's example), and at d = 31 and d = 32. -/
theorem witness_SingleBitFlipHasTheExactEffect :
    (let s := tx 0x81#32 0x9B000000#32 0 0 16#32 [0, 0]
     let s' := tx 0x81#32 0x9B000000#32 0 0 16#32 [0, 0x80]
     s.a = 0x9B000000#32 ∧ s.n.toNat ≤ 8 * s.buf.len ∧ s.n.toNat ≤ 8 * s'.buf.len ∧ 8 + 7 + 1 = s.n.toNat ∧
     (∀ q, q < s.n.toNat → streamBit s'.buf q = (streamBit s.buf q ^^ decide (q = 8)))) ∧
    (let s := tx 0x81#32 0x9B000000#32 0 0 16#32 [0, 0]
     let s' := tx 0x81#32 0x9B000000#32 0 0 16#32 [1, 0]
     7 + 8 + 1 = s.n.toNat ∧
     (∀ q, q < s.n.toNat → streamBit s'.buf q = (streamBit s.buf q ^^ decide (q = 7)))) ∧
    (let s := tx 0x81#32 1#32 0 0 33#32 [0, 0, 0, 0, 0]
     let s' := tx 0x81#32 1#32 0 0 33#32 [0x40, 0, 0, 0, 0]
     let s'' := tx 0x81#32 1#32 0 0 33#32 [0x80, 0, 0, 0, 0]
     1 + 31 + 1 = s.n.toNat ∧ 0 + 32 + 1 = s.n.toNat ∧
     (∀ q, q < s.n.toNat → streamBit s'.buf q = (streamBit s.buf q ^^ decide (q = 1))) ∧
     (∀ q, q < s.n.toNat → streamBit s''.buf q = (streamBit s.buf q ^^ decide (q = 0)))) := by decide

theorem witness_EngineCursorsEndAfterTheStreamBytes :
    (tx 0x201#32 0 0 0 72#32 digits).n.toNat ≤ 8 * (tx 0x201#32 0 0 0 72#32 digits).buf.len ∧
    (tx 0x201#32 0 0 0 0 []).n.toNat ≤ 8 * (tx 0x201#32 0 0 0 0 []).buf.len := by decide

/-- N mod 16 of 1 and of 7, with no byte after the stream. -/
theorem witness_TheOtherTailOffsetStopsBeyondTheBuffer :
    (let s := tx 0x202#32 0 0 0 7#32 [0xFF]
     s.n.toNat ≤ 8 * s.buf.len ∧ 1 ≤ s.n.toNat % 16 ∧ s.n.toNat % 16 ≤ 7 ∧ s.buf.len ≤ 2 * (s.n.toNat / 16) + 1) ∧
    (let s := tx 0x202#32 0 0 0 17#32 [0xFF, 0, 1]
     s.n.toNat ≤ 8 * s.buf.len ∧ 1 ≤ s.n.toNat % 16 ∧ s.n.toNat % 16 ≤ 7 ∧
     s.buf.len ≤ 2 * (s.n.toNat / 16) + 1) := by decide

theorem witness_ByteTransitionIsAlignThenStep :
    let s := startByteEngine (tx 0x201#32 1#32 2#32 0 8#32 [0xA5])
    1 ≤ (8#4 : BitVec 4).toNat ∧ (8#4 : BitVec 4).toNat ≤ 8 ∧ 1 ≤ (1#4 : BitVec 4).toNat ∧
    s.engine = some { crc := 2#32, pos := 0, scale8 := none } ∧ s.buf.read 0 = some 0xA5#8 := by decide

theorem witness_WordTransitionIsStep16 :
    let s := startWordEngine (tx 0x202#32 0x864CFB00#32 2#32 0 16#32 [0xA5, 0x3C])
    s.engine = some { crc := 2#32, pos := 0, scale8 := some (gmpy s.a (1#32 <<< 8)) } ∧
    s.buf.read 0 = some 0xA5#8 ∧ s.buf.read (0 + 1) = some 0x3C#8 := by decide

/-- W = 0 and 33, K = 0 and 9, N one bit beyond the buffer. -/
theorem witness_IllegalFieldsFault :
    (0#6 : BitVec 6).toNat < 1 ∧ 32 < (33#6 : BitVec 6).toNat ∧ (0#4 : BitVec 4).toNat < 1 ∧
    8 < (9#4 : BitVec 4).toNat ∧
    8 * (tx 0x81#32 0 0 0 9#32 [0]).buf.len < (tx 0x81#32 0 0 0 9#32 [0]).n.toNat := by decide

/-- One next state of a command that reads memory, one of a command that does not, one of a fault. -/
theorem witness_CommandsLeaveInputsAndBufferUnchanged :
    let s := tx 0x81#32 0x9B000000#32 0#32 0#32 8#32 [0xFF]
    exec (.crcw 8#6) s = .next (respond (.result 0x89#32) s) ∧ exec .gmpy s = .next (respond (.result 0#32) s) ∧
    exec (.step 9#4) s = .next (respond (.fault .badChunk) s) :=
  ⟨eq_of_isNext (by decide), eq_of_isNext (by decide), eq_of_isNext (by decide)⟩

/-- For each command, two states that differ in every operand, or operand bit, it does not use. -/
theorem witness_UnusedOperandsAreIgnored :
    agreeOnUsed (tx 0 1 2 3 4 [5]) (tx 0 1 2 6 7 [8]) .gmpy ∧
    agreeOnUsed (tx 0 1 2 3 4 [5]) (tx 0 1 2 6 4 [5]) (.crcb 8#6) ∧
    agreeOnUsed (tx 0 1 2 3 4 [5]) (tx 0 1 2 6 4 [5]) (.crcw 8#6) ∧
    agreeOnUsed (tx 0 1 2 3 4 [5]) (tx 0 1 2 3 7 [8]) (.step 8#4) ∧
    agreeOnUsed (tx 0 1 2 3 4 [5]) (tx 0 1 0xFFFF0002#32 3 7 [8]) .step16 ∧
    agreeOnUsed (tx 0 1 2 3 4 [5]) (tx 0 6 0xFFFFFF02#32 7 8 [9]) (.align 8#4) ∧
    agreeOnUsed (tx 0 1 2 3 4 [5]) (tx 0 1 6 7 8 [9]) (.oshift 8#6) := by
  simp only [agreeOnUsed]; decide

theorem witness_StepKeepsTheBlockInvariant :
    let s := tx 0x81#32 0x9B000000#32 0#32 0#32 8#32 [0xFF]
    s.inv = true ∧ step s = .next (respond (.result 0x89#32) s) :=
  ⟨by decide, eq_of_isNext (by decide)⟩

theorem witness_HostOperationsKeepTheBlockInvariant :
    let s : State := { State.reset with buf := Memory.ofBytes [1, 2] }
    s.inv = true ∧
    submit { cmd := 0x81#32, a := 1#32, b := 2#32, c := 3#32, n := 8#32, bytes := [7] } s =
      some (tx 0x81#32 1#32 2#32 3#32 8#32 [7]) ∧
    hostWrite 1 0#8 s = some { s with buf := Memory.ofBytes [1, 0] } := by decide

/-- The first byte, the last, and a write of the byte an unlisted index holds. -/
theorem witness_HostWriteChangesOneByte :
    (Memory.ofBytes [1, 0, 3]).wf = true ∧
    (Memory.ofBytes [1, 0, 3]).write 0 9#8 = some (Memory.ofBytes [9, 0, 3]) ∧
    (Memory.ofBytes [1, 0, 3]).write 2 0#8 = some (Memory.ofBytes [1, 0, 0]) ∧
    (Memory.ofBytes [1, 0, 3]).write 3 9#8 = none := by decide

/-- Two ways to one buffer; no buffer differs from the other and reads alike. -/
theorem witness_CanonicalBuffersThatReadAlikeAreEqual :
    let m := Memory.ofBytes [1, 0, 3]
    let m' : Memory := { len := 3, cells := [(0, 1#8), (2, 3#8)] }
    m.wf = true ∧ m'.wf = true ∧ m'.len = m.len ∧ ∀ x, m'.read x = m.read x :=
  ⟨by decide, by decide, by decide, fun _ => rfl⟩

theorem witness_PseudoInstructionsHaveTheirMeaning :
    1 ≤ (1#6 : BitVec 6).toNat ∧ (1#6 : BitVec 6).toNat ≤ 32 ∧ 1 ≤ (32#6 : BitVec 6).toNat ∧
    (32#6 : BitVec 6).toNat ≤ 32 := by decide

theorem witness_InstancesDoNotInteract :
    let s := tx 0x0#32 3#32 3#32 0 0 []
    (0 : Nat) ≠ 1 ∧ stepInstance 1 [s, s] = some [s, respond (.result 5#32) s] := by decide

end Sys2Proof.Tests
end

section
/-! SUPPORT. The laws of the galois multiply that the engines rest on: it is linear in its second operand, and it
commutes with the truncated left shift of either operand (40_galois_multiply.md R61, R62). -/

namespace Sys2Proof.Proofs

open Sys2Proof Sys2Proof.Machine Sys2Proof.Laws

/-- What bit `i` of the multiplier contributes to the accumulator of R58. -/
def partialProduct (a b : Word) (i : Nat) : Word := if b.getLsbD i then a <<< i else 0#32

theorem gmpyUpTo_succ_eq_xor (a b : Word) (i : Nat) :
    gmpyUpTo a b (i + 1) = gmpyUpTo a b i ^^^ partialProduct a b i := by
  rw [gmpyUpTo_succ, partialProduct]
  split <;> simp

theorem partialProduct_xor_right (a x y : Word) (i : Nat) :
    partialProduct a (x ^^^ y) i = partialProduct a x i ^^^ partialProduct a y i := by
  simp only [partialProduct, BitVec.getLsbD_xor]
  cases x.getLsbD i <;> cases y.getLsbD i <;> simp

theorem partialProduct_shiftLeft_left (a b : Word) (k i : Nat) :
    partialProduct (a <<< k) b i = partialProduct a b i <<< k := by
  unfold partialProduct
  split
  · rw [← BitVec.shiftLeft_add, Nat.add_comm, BitVec.shiftLeft_add]
  · simp

theorem partialProduct_shiftLeft_one_zero (a b : Word) : partialProduct a (b <<< 1) 0 = 0#32 := by
  simp [partialProduct]

/-- A doubled multiplier's partial products are one bit late. -/
theorem partialProduct_shiftLeft_one_succ (a b : Word) {i : Nat} (hi : i + 1 < 32) :
    partialProduct a (b <<< 1) (i + 1) = partialProduct a b i <<< 1 := by
  have hbit : (b <<< 1).getLsbD (i + 1) = b.getLsbD i := by
    rw [BitVec.getLsbD_shiftLeft]; simp [hi]
  rw [partialProduct, partialProduct, hbit]
  split
  · exact BitVec.shiftLeft_add ..
  · simp

/-- The last partial product is shifted out of the word. -/
theorem partialProduct_last_shiftLeft_one (a b : Word) : partialProduct a b 31 <<< 1 = 0#32 := by
  unfold partialProduct
  split <;> simp [← BitVec.shiftLeft_add]

theorem gmpyUpTo_xor_right (a x y : Word) (i : Nat) :
    gmpyUpTo a (x ^^^ y) i = gmpyUpTo a x i ^^^ gmpyUpTo a y i := by
  induction i with
  | zero => simp [gmpyUpTo_zero]
  | succ i ih =>
    rw [gmpyUpTo_succ_eq_xor, gmpyUpTo_succ_eq_xor, gmpyUpTo_succ_eq_xor, ih, partialProduct_xor_right]
    ac_rfl

theorem gmpy_xor_right (a x y : Word) : gmpy a (x ^^^ y) = gmpy a x ^^^ gmpy a y :=
  gmpyUpTo_xor_right a x y 32

theorem gmpy_zero (a : Word) : gmpy a 0#32 = 0#32 :=
  calc gmpy a 0#32 = gmpy a (0#32 ^^^ 0#32) := by rw [BitVec.xor_self]
    _ = 0#32 := by rw [gmpy_xor_right, BitVec.xor_self]

theorem gmpyUpTo_shiftLeft_left (a b : Word) (k i : Nat) : gmpyUpTo (a <<< k) b i = gmpyUpTo a b i <<< k := by
  induction i with
  | zero => simp [gmpyUpTo_zero]
  | succ i ih =>
    rw [gmpyUpTo_succ_eq_xor, gmpyUpTo_succ_eq_xor, ih, partialProduct_shiftLeft_left, BitVec.shiftLeft_xor_distrib]

theorem gmpy_shiftLeft_left (a b : Word) (k : Nat) : gmpy (a <<< k) b = gmpy a b <<< k :=
  gmpyUpTo_shiftLeft_left a b k 32

/-- The accumulator over a doubled multiplier is one bit late. -/
theorem gmpyUpTo_shiftLeft_one (a b : Word) {i : Nat} (hi : i < 32) :
    gmpyUpTo a (b <<< 1) (i + 1) = gmpyUpTo a b i <<< 1 := by
  induction i with
  | zero => simp [gmpyUpTo_succ_eq_xor, gmpyUpTo_zero, partialProduct_shiftLeft_one_zero]
  | succ i ih =>
    rw [gmpyUpTo_succ_eq_xor, ih (by omega), partialProduct_shiftLeft_one_succ a b hi, ← BitVec.shiftLeft_xor_distrib,
      ← gmpyUpTo_succ_eq_xor]

theorem gmpy_shiftLeft_one (a b : Word) : gmpy a (b <<< 1) = gmpy a b <<< 1 :=
  calc gmpy a (b <<< 1) = gmpyUpTo a b 31 <<< 1 := gmpyUpTo_shiftLeft_one a b (by decide)
    _ = (gmpyUpTo a b 31 ^^^ partialProduct a b 31) <<< 1 := by
      rw [BitVec.shiftLeft_xor_distrib, partialProduct_last_shiftLeft_one, BitVec.xor_zero]
    _ = gmpy a b <<< 1 := by rw [← gmpyUpTo_succ_eq_xor, gmpy]

theorem gmpy_shiftLeft_right (a b : Word) (k : Nat) : gmpy a (b <<< k) = gmpy a b <<< k := by
  induction k with
  | zero => simp
  | succ k ih => rw [BitVec.shiftLeft_add, gmpy_shiftLeft_one, ih, ← BitVec.shiftLeft_add]

theorem gmpyUpTo_one_succ (a : Word) (i : Nat) : gmpyUpTo a 1#32 (i + 1) = a := by
  induction i with
  | zero => simp [gmpyUpTo_succ, gmpyUpTo_zero]
  | succ i ih => rw [gmpyUpTo_succ, ih]; simp

theorem gmpy_one (a : Word) : gmpy a 1#32 = a :=
  gmpyUpTo_one_succ a 31

/-- Multiplying by a power of two is the truncated left shift (R62). -/
theorem gmpy_one_shiftLeft (a : Word) (k : Nat) : gmpy a (1#32 <<< k) = a <<< k := by
  rw [gmpy_shiftLeft_right, gmpy_one]

theorem fold_eq_shiftLeft (k : Nat) (crc : Word) : fold k crc = crc <<< k :=
  gmpy_one_shiftLeft crc k

theorem scaleByEight_eq_shiftLeft (poly : Word) : scaleByEight poly = poly <<< 8 :=
  gmpy_one_shiftLeft poly 8

theorem transition_eq (poly v crc : Word) (k : Nat) : transition poly v crc k = gmpy poly v ^^^ crc <<< k := by
  rw [transition, fold_eq_shiftLeft]

/-- A full-word transition with `scale8` is two byte transitions, the earlier byte first (42_crc_word_serial.md R81). -/
theorem wordTransition_eq_two_transitions (poly crc : Word) (b0 b1 : Byte) :
    wordTransition poly (scaleByEight poly) crc b0 b1 =
      transition poly (alignByte 8 b1) (transition poly (alignByte 8 b0) crc 8) 8 := by
  simp only [wordTransition, transition_eq, fold_eq_shiftLeft, scaleByEight_eq_shiftLeft, gmpy_shiftLeft_left,
    alignByte_eight, BitVec.shiftLeft_xor_distrib]
  ac_rfl

end Sys2Proof.Proofs
end

section
/-! SUPPORT. The register after any number of stream bits, in closed form, and what a transition does to it
(41_crc_byte_serial.md R67, R68, R69, R72). -/

namespace Sys2Proof.Proofs

open Sys2Proof Sys2Proof.Machine Sys2Proof.Laws

/-- The closed form of R72 after the first `m` stream bits: the register of an engine that has consumed them. -/
def registerAfter (s : State) (m : Nat) : Word :=
  BitVec.ofNat 32 (s.b.toNat * 2 ^ m) ^^^ gmpy s.a (BitVec.ofNat 32 (message s.buf m))

theorem registerAfter_n (s : State) : registerAfter s s.n.toNat = closedRegister s := rfl

@[simp] theorem registerAfter_zero (s : State) : registerAfter s 0 = s.b := by
  simp [registerAfter, message_zero, gmpy_zero]

/-- One bit more of a byte, as a number. -/
theorem alignByte_succ {k : Nat} (hk : k < 8) (v : Byte) :
    (alignByte (k + 1) v).toNat = 2 * (alignByte k v).toNat + (v.getLsbD (7 - k)).toNat := by
  have hlow : (v.getLsbD (7 - k)).toNat = v.toNat / 2 ^ (7 - k) % 2 := Nat.toNat_testBit ..
  have hsucc : 8 - (k + 1) = 7 - k := by omega
  have hsame : 8 - k = 7 - k + 1 := by omega
  rw [alignByte_toNat, alignByte_toNat, hlow, hsucc, hsame, Nat.pow_succ, ← Nat.div_div_eq_div_mul]
  exact (Nat.div_add_mod ..).symm

/-- The message with the first `k` bits of the next byte `v` (20_memory.md R30). -/
theorem message_add_chunk {m : Memory} {p : Nat} {v : Byte} (hv : m.read p = some v) {k : Nat} (hk : k ≤ 8) :
    message m (8 * p + k) = 2 ^ k * message m (8 * p) + (alignByte k v).toNat := by
  induction k with
  | zero =>
    have hnone : (alignByte 0 v).toNat = 0 := Nat.lt_one_iff.mp (alignByte_lt hk v)
    simp [hnone]
  | succ k ih =>
    have hbit : streamBit m (8 * p + k) = v.getLsbD (7 - k) := by
      rw [streamBit, show (8 * p + k) / 8 = p by omega, show (8 * p + k) % 8 = k by omega, hv]
    rw [← Nat.add_assoc, message_succ, ih (by omega), hbit, alignByte_succ hk]
    ring

/-- Digits of a number as a shift and a XOR, in a word. -/
theorem ofNat_two_pow_mul_add {k c : Nat} (hc : c < 2 ^ k) (x : Nat) :
    BitVec.ofNat 32 (2 ^ k * x + c) = BitVec.ofNat 32 x <<< k ^^^ BitVec.ofNat 32 c := by
  refine BitVec.eq_of_getLsbD_eq fun j hj => ?_
  have hbit := Nat.testBit_two_pow_mul_add x hc j
  rw [BitVec.getLsbD_xor, BitVec.getLsbD_shiftLeft, BitVec.getLsbD_ofNat, BitVec.getLsbD_ofNat, BitVec.getLsbD_ofNat,
    hbit]
  by_cases hk : j < k
  · simp [hk, hj]
  · have hhigh : c.testBit j = false :=
      Nat.testBit_lt_two_pow (hc.trans_le (Nat.pow_le_pow_right (by decide) (by omega)))
    simp [hk, hj, hhigh, show j - k < 32 by omega]

theorem ofNat_mul_two_pow (x k : Nat) : BitVec.ofNat 32 (x * 2 ^ k) = BitVec.ofNat 32 x <<< k := by
  simpa [Nat.mul_comm] using ofNat_two_pow_mul_add (Nat.two_pow_pos k) x

/-- The transition on the first `k` bits of the next byte takes the closed form `k` bits on. -/
theorem transition_registerAfter {s : State} {p : Nat} {v : Byte} (hv : s.buf.read p = some v) {k : Nat} (hk : k ≤ 8) :
    transition s.a (alignByte k v) (registerAfter s (8 * p)) k = registerAfter s (8 * p + k) := by
  have hinit : BitVec.ofNat 32 (s.b.toNat * 2 ^ (8 * p + k)) = BitVec.ofNat 32 (s.b.toNat * 2 ^ (8 * p)) <<< k := by
    rw [Nat.pow_add, ← Nat.mul_assoc, ofNat_mul_two_pow]
  have hmsg : BitVec.ofNat 32 (message s.buf (8 * p + k)) =
      BitVec.ofNat 32 (message s.buf (8 * p)) <<< k ^^^ alignByte k v := by
    rw [message_add_chunk hv hk, ofNat_two_pow_mul_add (alignByte_lt hk v), BitVec.ofNat_toNat, BitVec.setWidth_eq]
  rw [transition_eq, registerAfter, registerAfter, hinit, hmsg, gmpy_xor_right, gmpy_shiftLeft_right,
    BitVec.shiftLeft_xor_distrib, BitVec.xor_comm, BitVec.xor_assoc]

end Sys2Proof.Proofs
end

section
/-! SUPPORT. The two engines in closed form: what stands in the working values after any number of stream bits
(10_state.md R20 to R22, 41_crc_byte_serial.md R65, 42_crc_word_serial.md R78). -/

namespace Sys2Proof.Proofs

open Sys2Proof Sys2Proof.Machine Sys2Proof.Laws

/-- The state inside a CRC command of `s` that has consumed the first `m` stream bits. -/
def consumed (s : State) (scale8 : Option Word) (m : Nat) : State :=
  { s with engine := some { crc := registerAfter s m, pos := (m + 7) / 8, scale8 := scale8 } }

@[simp] theorem consumed_a (s : State) (scale8 : Option Word) (m : Nat) : (consumed s scale8 m).a = s.a := rfl
@[simp] theorem consumed_n (s : State) (scale8 : Option Word) (m : Nat) : (consumed s scale8 m).n = s.n := rfl
@[simp] theorem consumed_buf (s : State) (scale8 : Option Word) (m : Nat) : (consumed s scale8 m).buf = s.buf := rfl
@[simp] theorem consumed_engine (s : State) (scale8 : Option Word) (m : Nat) : (consumed s scale8 m).engine =
    some { crc := registerAfter s m, pos := (m + 7) / 8, scale8 := scale8 } := rfl

@[simp] theorem respond_consumed (o : Response) (s : State) (scale8 : Option Word) (m : Nat) :
    respond o (consumed s scale8 m) = respond o s := rfl

/-- An engine that has consumed all N bits holds the closed form, with its cursor after the stream's bytes. -/
theorem consumed_n_eq (s : State) (scale8 : Option Word) : consumed s scale8 s.n.toNat =
    { s with engine := some { crc := closedRegister s, pos := streamBytes s.n, scale8 := scale8 } } := rfl

theorem startByteEngine_eq_consumed (s : State) : startByteEngine s = consumed s none 0 := by
  rw [consumed, registerAfter_zero]
  rfl

theorem startWordEngine_eq_consumed (s : State) : startWordEngine s = consumed s (some (scaleByEight s.a)) 0 := by
  rw [consumed, registerAfter_zero]
  rfl

/-- A transition on the next byte, at a byte boundary of the stream, consumes its first `k` bits (R68, R69). -/
theorem chunkStep_consumed {s : State} {p : Nat} (hp : p < s.buf.len) (scale8 : Option Word) {k : Nat} (hk0 : 0 < k)
    (hk : k ≤ 8) : chunkStep 0 k (consumed s scale8 (8 * p)) = .next (consumed s scale8 (8 * p + k)) := by
  have hpos : (8 * p + 7) / 8 = p := by omega
  have hpos' : (8 * p + k + 7) / 8 = p + 1 := by omega
  rw [chunkStep_of_lt (consumed_engine ..) k (by simpa [hpos] using hp)]
  simp only [consumed_a, consumed_buf, hpos, Nat.add_zero, transition_registerAfter (read_of_lt hp) hk]
  simp only [consumed, hpos']

/-- The full-byte loop consumes eight bits an iteration (R68). -/
theorem repeatStep_chunkStep_consumed {s : State} (scale8 : Option Word) {j : Nat} (hj : j ≤ s.buf.len) :
    repeatStep (chunkStep 0 8) j (consumed s scale8 0) = .next (consumed s scale8 (8 * j)) := by
  induction j with
  | zero => rfl
  | succ j ih =>
    rw [repeatStep_succ_last, ih (by omega), andThen_next]
    exact chunkStep_consumed hj scale8 (by decide) le_rfl

/-- A full-word transition consumes two bytes (42_crc_word_serial.md R82). -/
theorem wordStep_consumed {s : State} {p : Nat} (hp : p + 1 < s.buf.len) :
    wordStep (consumed s (some (scaleByEight s.a)) (8 * p)) =
      .next (consumed s (some (scaleByEight s.a)) (8 * (p + 2))) := by
  have hpos : (8 * p + 7) / 8 = p := by omega
  have hpos' : (8 * (p + 2) + 7) / 8 = p + 2 := by omega
  have hfirst := transition_registerAfter (read_of_lt (Nat.lt_of_succ_lt hp)) (le_refl 8)
  have hsecond := transition_registerAfter (read_of_lt hp) (le_refl 8)
  rw [wordStep_of_lt (consumed_engine ..) rfl (by simpa [hpos] using hp)]
  simp only [consumed_a, consumed_buf, hpos, wordTransition_eq_two_transitions, hfirst, ← Nat.mul_succ, hsecond]
  simp only [consumed, hpos']

/-- The full-word loop consumes sixteen bits an iteration (42_crc_word_serial.md R82). -/
theorem repeatStep_wordStep_consumed {s : State} {j : Nat} (hj : 2 * j ≤ s.buf.len) :
    repeatStep wordStep j (consumed s (some (scaleByEight s.a)) 0) =
      .next (consumed s (some (scaleByEight s.a)) (8 * (2 * j))) := by
  induction j with
  | zero => rfl
  | succ j ih =>
    rw [repeatStep_succ_last, ih (by omega), andThen_next]
    exact wordStep_consumed (by omega)

/-- After the full bytes, the partial-byte transition consumes what is left of N (R69). -/
theorem partialStep_consumed {s : State} (hn : s.n.toNat ≤ 8 * s.buf.len) (scale8 : Option Word) :
    partialStep 0 (consumed s scale8 (8 * fullBytes s.n)) = .next (consumed s scale8 s.n.toNat) := by
  have hsplit := bits_eq_bytes_and_rest s.n
  have hlt := leftoverBits_lt s.n
  rw [partialStep, consumed_n]
  split
  · rw [chunkStep_consumed (by omega) scale8 ‹_› hlt.le, ← hsplit]
  · rw [show 8 * fullBytes s.n = s.n.toNat by omega]

/-- CRCB's engine consumes exactly the N bits of the stream (R65). -/
theorem runByteEngine_eq {s : State} (hn : s.n.toNat ≤ 8 * s.buf.len) :
    runByteEngine s = .next (consumed s none s.n.toNat) := by
  have hsplit := bits_eq_bytes_and_rest s.n
  rw [runByteEngine, startByteEngine_eq_consumed, repeatStep_chunkStep_consumed none (by omega), andThen_next,
    partialStep_consumed hn]

/-- The full bytes are two for every full word, and the extra byte (43_bit_alignment_helpers.md R92). -/
theorem fullBytes_eq_words_and_extra (n : Word) :
    fullBytes n = 2 * fullWords n + if hasExtraByte n then 1 else 0 := by
  simp only [fullBytes, fullWords, hasExtraByte, beq_iff_eq]
  split <;> omega

/-- After the full words, either tail consumes what is left of N (42_crc_word_serial.md R83 to R85). -/
theorem wordTail_consumed {s : State} (hn : s.n.toNat ≤ 8 * s.buf.len) (scale8 : Option Word) :
    wordTail 0 (consumed s scale8 (8 * (2 * fullWords s.n))) = .next (consumed s scale8 s.n.toNat) := by
  have hsplit := bits_eq_bytes_and_rest s.n
  have hbytes := fullBytes_eq_words_and_extra s.n
  rw [wordTail, consumed_n]
  split at hbytes
  · rw [if_pos ‹_›, chunkStep_consumed (by omega) scale8 (by decide) le_rfl, andThen_next,
      ← partialStep_consumed hn, hbytes]
    rfl
  · rw [if_neg ‹_›, ← partialStep_consumed hn, hbytes]
    rfl

/-- CRCW's engine consumes exactly the N bits of the stream too (42_crc_word_serial.md R78). -/
theorem runWordEngine_eq {s : State} (hn : s.n.toNat ≤ 8 * s.buf.len) :
    runWordEngine Config.wordTailBOffset s = .next (consumed s (some (scaleByEight s.a)) s.n.toNat) := by
  have hsplit := bits_eq_bytes_and_rest s.n
  have hbytes := fullBytes_eq_words_and_extra s.n
  rw [runWordEngine, startWordEngine_eq_consumed, repeatStep_wordStep_consumed (by omega), andThen_next,
    Config.wordTailBOffset, wordTail_consumed hn]

/-- N has 32 bits, so its bits lie in at most 2^29 bytes (20_memory.md R33). -/
theorem streamBytes_le (n : Word) : streamBytes n ≤ 2 ^ 29 := by
  have := n.isLt
  unfold streamBytes
  omega

/-- Settles O29: each engine ends in the state that has consumed all N bits. -/
theorem engineCursorsEndAfterTheStreamBytes : Obligations.EngineCursorsEndAfterTheStreamBytes := by
  intro s hn
  refine ⟨streamBytes_le s.n, ?_, ?_⟩
  · rw [runByteEngine_eq hn, consumed_n_eq]
  · rw [runWordEngine_eq hn, consumed_n_eq, scaleByEight_eq_shiftLeft]

end Sys2Proof.Proofs
end

section
/-! SUPPORT. What every command answers: one outcome, in every state, computed from the operands it uses; the rest of the
state is as it was. -/

namespace Sys2Proof.Proofs

open Sys2Proof Sys2Proof.Machine Sys2Proof.Laws

/-- The outcome of a CRC command of output width `w`, of either engine: its faults in the order of 60_exceptions.md R98,
then R72. -/
def crcOutcome (w : BitVec 6) (s : State) : Response :=
  if widthOk w = false then .fault .badWidth
  else if bitCountOk s = false then .fault .badBitCount
  else .result (outShift w.toNat (closedRegister s))

/-- The outcome of each command. -/
def commandOutcome (s : State) : Instr → Response
  | .gmpy => .result (gmpy s.a s.b)
  | .crcb w => crcOutcome w s
  | .crcw w => crcOutcome w s
  | .step k => if chunkOk k = false then .fault .badChunk else .result (transition s.a s.b s.c k.toNat)
  | .step16 => .result (wordTransition s.a (scaleByEight s.a) s.c (lowByte s.b) (highByte s.b))
  | .align k => if chunkOk k = false then .fault .badChunk else .result (alignByte k.toNat (lowByte s.b))
  | .oshift w => if widthOk w = false then .fault .badWidth else .result (outShift w.toNat s.a)

/-- A CRC command whose engine consumes the N bits of the stream answers the outcome of R72. -/
theorem crcCommand_eq_respond {w : BitVec 6} {run : State → Result} {s : State} (scale8 : Option Word)
    (hrun : s.n.toNat ≤ 8 * s.buf.len → run s = .next (consumed s scale8 s.n.toNat)) :
    crcCommand w run s = .next (respond (crcOutcome w s) s) := by
  unfold crcCommand crcOutcome
  split
  · rfl
  · split
    · rfl
    · rw [hrun (by simpa [bitCountOk] using ‹¬bitCountOk s = false›), andThen_next, emit_of_some (consumed_engine ..)]
      rfl

/-- The end of a command that checks one field: its fault or its result. -/
theorem raiseFault_or_deliver_eq_respond (ok : Bool) (code : FaultCode) (r : Word) (s : State) :
    (if ok = false then raiseFault code s else deliver r s) =
      .next (respond (if ok = false then .fault code else .result r) s) := by
  split <;> rfl

/-- Every command ends in every state, with its one outcome, and changes nothing else. -/
theorem exec_eq_respond (i : Instr) (s : State) : exec i s = .next (respond (commandOutcome s i) s) := by
  cases i with
  | gmpy => rfl
  | crcb w => exact crcCommand_eq_respond none runByteEngine_eq
  | crcw w => exact crcCommand_eq_respond (some (scaleByEight s.a)) runWordEngine_eq
  | step k => exact raiseFault_or_deliver_eq_respond ..
  | step16 => rfl
  | align k => exact raiseFault_or_deliver_eq_respond ..
  | oshift w => exact raiseFault_or_deliver_eq_respond ..

/-- A CRC command's outcome depends on A, B, N and the buffer only. -/
theorem crcOutcome_congr {s s' : State} (w : BitVec 6) (ha : s'.a = s.a) (hb : s'.b = s.b) (hn : s'.n = s.n)
    (hbuf : s'.buf = s.buf) : crcOutcome w s' = crcOutcome w s := by
  have hcount : bitCountOk s' = bitCountOk s := by rw [bitCountOk, hn, hbuf, ← bitCountOk]
  have hreg : closedRegister s' = closedRegister s := by rw [closedRegister, ha, hb, hn, hbuf, ← closedRegister]
  rw [crcOutcome, hcount, hreg, ← crcOutcome]

/-- B[15:0] determines STEP16's first byte. -/
theorem lowByte_congr {x y : Word} (h : x.extractLsb' 0 16 = y.extractLsb' 0 16) : lowByte x = lowByte y := by
  have hslice : ∀ z : Word, lowByte z = (z.extractLsb' 0 16).extractLsb' 0 8 := fun z => by
    ext j hj; simp [lowByte]
  rw [hslice, hslice, h]

/-- B[15:0] determines STEP16's second byte. -/
theorem highByte_congr {x y : Word} (h : x.extractLsb' 0 16 = y.extractLsb' 0 16) : highByte x = highByte y := by
  have hslice : ∀ z : Word, highByte z = (z.extractLsb' 0 16).extractLsb' 8 8 := fun z => by
    ext j hj; simp [highByte]
  rw [hslice, hslice, h]

/-- The outcome of a command depends on the operands it uses only (30_encoding.md R49, R51). -/
theorem commandOutcome_congr {s s' : State} {i : Instr} (h : agreeOnUsed s s' i) :
    commandOutcome s' i = commandOutcome s i := by
  cases i with
  | gmpy =>
    obtain ⟨ha, hb⟩ := h
    simp only [commandOutcome, ha, hb]
  | crcb w =>
    obtain ⟨ha, hb, hn, hbuf⟩ := h
    exact crcOutcome_congr w ha hb hn hbuf
  | crcw w =>
    obtain ⟨ha, hb, hn, hbuf⟩ := h
    exact crcOutcome_congr w ha hb hn hbuf
  | step k =>
    obtain ⟨ha, hb, hc⟩ := h
    simp only [commandOutcome, ha, hb, hc]
  | step16 =>
    obtain ⟨ha, hb, hc⟩ := h
    simp only [commandOutcome, ha, lowByte_congr hb, highByte_congr hb, hc]
  | align k =>
    have hb : lowByte s'.b = lowByte s.b := h
    simp only [commandOutcome, hb]
  | oshift w =>
    have ha : s'.a = s.a := h
    simp only [commandOutcome, ha]

theorem agreeOnUsed_of_same_inputs {s s' : State} (ha : s'.a = s.a) (hb : s'.b = s.b) (hc : s'.c = s.c)
    (hn : s'.n = s.n) (hbuf : s'.buf = s.buf) (i : Instr) : agreeOnUsed s s' i := by
  cases i <;> simp [agreeOnUsed, *]

/-- Settles O36: a command's next state is its outcome beside the state it started in. -/
theorem commandsLeaveInputsAndBufferUnchanged : Obligations.CommandsLeaveInputsAndBufferUnchanged := by
  intro i s t h
  rw [exec_eq_respond] at h
  cases h
  exact ⟨rfl, rfl, rfl, rfl, rfl, rfl, fun _ => rfl, rfl, rfl⟩

/-- Settles O37: the outcome of a command is a function of the operands it uses. -/
theorem unusedOperandsAreIgnored : Obligations.UnusedOperandsAreIgnored := by
  intro i s s' h
  refine ⟨commandOutcome s i, exec_eq_respond i s, ?_⟩
  rw [exec_eq_respond, commandOutcome_congr h]
  rfl

end Sys2Proof.Proofs
end

section
/-! SUPPORT. One step as a whole: nothing where no transaction is in flight, and otherwise the outcome of the command word
beside the state it started in. -/

namespace Sys2Proof.Proofs

open Sys2Proof Sys2Proof.Machine Sys2Proof.Laws

theorem step_of_idle {s : State} (h : s.inFlight = false) : step s = .next s := by
  simp [step, fetch, h, idle]

theorem step_of_instr {s : State} {i : Instr} (hf : s.inFlight = true) (hd : decode s.cmd = .instr i) :
    step s = exec i s := by
  simp [step, fetch, hf, hd]

theorem step_of_illegalOp {s : State} (hf : s.inFlight = true) (hd : decode s.cmd = .illegalOp) :
    step s = raiseFault .illegalOp s := by
  simp [step, fetch, hf, hd]

theorem step_of_reservedField {s : State} (hf : s.inFlight = true) (hd : decode s.cmd = .reservedField) :
    step s = raiseFault .reservedField s := by
  simp [step, fetch, hf, hd]

/-- The outcome of the transaction that the inputs of `s` present, whose command word decodes to the argument. -/
def decodedOutcome (s : State) : Decoded → Response
  | .instr i => commandOutcome s i
  | .illegalOp => .fault .illegalOp
  | .reservedField => .fault .reservedField

/-- A transaction in flight always ends, with its one outcome, and changes nothing else (10_state.md R17, R18). -/
theorem step_eq_respond {s : State} (hf : s.inFlight = true) :
    step s = .next (respond (decodedOutcome s (decode s.cmd)) s) := by
  cases hd : decode s.cmd with
  | instr i => rw [step_of_instr hf hd, exec_eq_respond]; rfl
  | illegalOp => rw [step_of_illegalOp hf hd]; rfl
  | reservedField => rw [step_of_reservedField hf hd]; rfl

/-- Everything a step that gives a next state can do: it was idle, or it ended the transaction in flight. -/
theorem step_next {s t : State} (h : step s = .next t) :
    (s.inFlight = false ∧ t = s) ∨ (s.inFlight = true ∧ t = respond (decodedOutcome s (decode s.cmd)) s) := by
  cases hf : s.inFlight with
  | false => rw [step_of_idle hf] at h; cases h; exact .inl ⟨rfl, rfl⟩
  | true => rw [step_eq_respond hf] at h; cases h; exact .inr ⟨rfl, rfl⟩

theorem decodedOutcome_congr {s s' : State} (ha : s'.a = s.a) (hb : s'.b = s.b) (hc : s'.c = s.c) (hn : s'.n = s.n)
    (hbuf : s'.buf = s.buf) (d : Decoded) : decodedOutcome s' d = decodedOutcome s d := by
  cases d with
  | instr i => exact commandOutcome_congr (agreeOnUsed_of_same_inputs ha hb hc hn hbuf i)
  | illegalOp => rfl
  | reservedField => rfl

/-- Settles O6: the equation of `step` on a command in flight. -/
theorem stepRunsTheDecodedCommand : Obligations.StepRunsTheDecodedCommand :=
  fun _ _ hf hd => step_of_instr hf hd

/-- A table word that is a command is a 32-bit word that decodes to it. -/
theorem decode_of_decodeTableWord {nbits w : Nat} {i : Instr} (h : decodeTableWord nbits w = some i) :
    decode (BitVec.ofNat 32 w) = .instr i := by
  unfold decodeTableWord at h
  split at h
  · split at h
    · cases h; assumption
    · cases h
    · cases h
  · cases h

/-- Settles O7: the presented word is on CMD, in flight, and it decodes to the table's command. -/
theorem presentedWordRunsNext : Obligations.PresentedWordRunsNext := by
  intro s nbits w i h
  exact step_of_instr (withFetchWord_inFlight ..) (by rw [withFetchWord_cmd, decode_of_decodeTableWord h])

/-- Settles O10: the outcome is that of the same inputs, whatever stood in the working values and the outcome before. -/
theorem outcomeIsAFunctionOfTheInputs : Obligations.OutcomeIsAFunctionOfTheInputs := by
  intro s s' hf hf' hcmd ha hb hc hn hbuf
  have hsame : decodedOutcome s' (decode s'.cmd) = decodedOutcome s (decode s.cmd) := by
    rw [hcmd, decodedOutcome_congr ha hb hc hn hbuf]
  exact ⟨decodedOutcome s (decode s.cmd), step_eq_respond hf, hsame ▸ step_eq_respond hf'⟩

end Sys2Proof.Proofs
end

section
/-! SUPPORT. The invariant of the block: it holds at reset, every step keeps it, and so does everything the host does. -/

namespace Sys2Proof.Proofs

open Sys2Proof Sys2Proof.Machine Sys2Proof.Laws

/-- The four clauses of the invariant. -/
theorem inv_iff (s : State) : s.inv = true ↔ s.buf.wf = true ∧ s.engine = none ∧
    (s.inFlight = true → s.response = none) ∧ ∀ o, s.response = some o → responseFits s.cmd o = true := by
  cases hf : s.inFlight <;> cases hr : s.response <;> simp [State.inv, hf, hr, and_assoc]

theorem widthOk_le {w : BitVec 6} (h : ¬widthOk w = false) : w.toNat ≤ 32 := by
  have hrange : 1 ≤ w.toNat ∧ w.toNat ≤ 32 := by simpa [widthOk] using h
  exact hrange.2

theorem chunkOk_le {k : BitVec 4} (h : ¬chunkOk k = false) : k.toNat ≤ 8 := by
  have hrange : 1 ≤ k.toNat ∧ k.toNat ≤ 8 := by simpa [chunkOk] using h
  exact hrange.2

/-- An outcome is one of the command `i`: a result below its bound, or one of its faults. -/
def outcomeFits (i : Instr) : Response → Bool
  | .result r => resultFits r i
  | .fault code => faultFits code i

theorem responseFits_of_instr {cmd : Word} {i : Instr} (hd : decode cmd = .instr i) (o : Response) :
    responseFits cmd o = outcomeFits i o := by
  cases o <;> simp [responseFits, outcomeFits, hd]

/-- The outcome of a CRC command fits it (R75); what CRCB and CRCW can answer is the same. -/
theorem crcOutcome_fits (w : BitVec 6) (s : State) : outcomeFits (.crcb w) (crcOutcome w s) = true := by
  unfold crcOutcome
  split
  · rfl
  · split
    · rfl
    · exact decide_eq_true (outShift_lt (widthOk_le ‹_›) _)

theorem commandOutcome_fits (s : State) (i : Instr) : outcomeFits i (commandOutcome s i) = true := by
  cases i with
  | gmpy => rfl
  | crcb w => exact crcOutcome_fits w s
  | crcw w => exact crcOutcome_fits w s
  | step k =>
    simp only [commandOutcome]
    split <;> rfl
  | step16 => rfl
  | align k =>
    simp only [commandOutcome]
    split
    · rfl
    · exact decide_eq_true (alignByte_lt (chunkOk_le ‹_›) _)
  | oshift w =>
    simp only [commandOutcome]
    split
    · rfl
    · exact decide_eq_true (outShift_lt (widthOk_le ‹_›) _)

/-- The outcome of a transaction is one its command word can have (10_state.md R17, 60_exceptions.md R95). -/
theorem decodedOutcome_fits (s : State) : responseFits s.cmd (decodedOutcome s (decode s.cmd)) = true := by
  cases hd : decode s.cmd with
  | instr i => rw [responseFits_of_instr hd]; exact commandOutcome_fits s i
  | illegalOp => simp [responseFits, decodedOutcome, hd]
  | reservedField => simp [responseFits, decodedOutcome, hd]

/-- Ending a transaction with an outcome its word can have keeps the invariant. -/
theorem respond_inv {s : State} {o : Response} (hwf : s.buf.wf = true) (ho : responseFits s.cmd o = true) :
    (respond o s).inv = true := by
  rw [inv_iff]
  refine ⟨hwf, rfl, by simp, fun o' h => ?_⟩
  cases h
  exact ho

/-- A state with a canonical buffer, no working value and no outcome meets the invariant. -/
theorem inv_of_no_outcome {s : State} (hwf : s.buf.wf = true) (he : s.engine = none) (hr : s.response = none) :
    s.inv = true := by
  rw [inv_iff]
  exact ⟨hwf, he, fun _ => hr, fun o h => by rw [hr] at h; cases h⟩

/-- Settles O38: a step leaves the state alone, or ends its transaction with an outcome its word can have. -/
theorem stepKeepsTheBlockInvariant : Obligations.StepKeepsTheBlockInvariant := by
  intro s t hs h
  obtain ⟨-, rfl⟩ | ⟨-, rfl⟩ := step_next h
  · exact hs
  · obtain ⟨hwf, -⟩ := (inv_iff s).mp hs
    exact respond_inv hwf (decodedOutcome_fits s)

/-- Settles O39: the reset state has an empty buffer and no outcome. -/
theorem resetMeetsTheBlockInvariant : Obligations.ResetMeetsTheBlockInvariant :=
  inv_of_no_outcome reset_buf_wf rfl rfl

theorem submit_inv {t : Transaction} {s u : State} (h : submit t s = some u) : u.inv = true := by
  unfold submit at h
  split at h
  · cases h
  · cases h
    exact inv_of_no_outcome (ofBytes_wf t.bytes) rfl rfl

/-- A host write happens with nothing in flight, and puts a written buffer in the place of the old one. -/
theorem hostWrite_eq_some {i : Nat} {v : Byte} {s t : State} (h : hostWrite i v s = some t) :
    ∃ m, s.buf.write i v = some m ∧ s.inFlight = false ∧ t = { s with buf := m } := by
  unfold hostWrite at h
  split at h
  · cases h
  · obtain ⟨m, hm, rfl⟩ := Option.map_eq_some_iff.mp h
    exact ⟨m, hm, by simpa using ‹¬s.inFlight = true›, rfl⟩

theorem hostWrite_inv {i : Nat} {v : Byte} {s t : State} (hs : s.inv = true) (h : hostWrite i v s = some t) :
    t.inv = true := by
  obtain ⟨m, hm, -, rfl⟩ := hostWrite_eq_some h
  obtain ⟨hwf, hrest⟩ := (inv_iff s).mp hs
  exact (inv_iff _).mpr ⟨(write_wf hwf hm).1, hrest⟩

/-- Settles O40: only the host write keeps an outcome, and it keeps the buffer canonical. -/
theorem hostOperationsKeepTheBlockInvariant : Obligations.HostOperationsKeepTheBlockInvariant := by
  intro s hs
  obtain ⟨hwf, -⟩ := (inv_iff s).mp hs
  refine ⟨fun t u h => submit_inv h, fun nbits w => ?_, fun i v t h => hostWrite_inv hs h, ?_⟩
  · exact inv_of_no_outcome hwf (withFetchWord_engine ..) (withFetchWord_response ..)
  · exact inv_of_no_outcome hwf (resetBlock_engine s) (resetBlock_response s)

/-- Settles O41: the values of the reset state. -/
theorem resetLeavesNoTransaction : Obligations.ResetLeavesNoTransaction :=
  ⟨rfl, rfl, rfl, rfl⟩

end Sys2Proof.Proofs
end

section
/-! SUPPORT. The FAULT output (60_exceptions.md R95). -/

namespace Sys2Proof.Proofs

open Sys2Proof Sys2Proof.Machine

/-- The number of a fault code is one of 1 to 5. -/
theorem number_ne (code : FaultCode) : code.number ≠ 0#3 ∧ code.number ≠ 6#3 ∧ code.number ≠ 7#3 := by
  cases code <;> decide

/-- Settles O35: a result reads as 0, and a fault as its code's number, which is never 0, 6 or 7. -/
theorem faultOutputHasTheSpecCodes : Obligations.FaultOutputHasTheSpecCodes := by
  refine ⟨fun _ => rfl, rfl, rfl, rfl, rfl, rfl, fun o => ?_⟩
  cases o with
  | result r => simp [faultOutput]
  | fault code =>
    obtain ⟨h0, h6, h7⟩ := number_ne code
    simp [faultOutput, h0, h6, h7]

end Sys2Proof.Proofs
end

section
/-! SUPPORT. The input buffer: what a read returns after a host write, and from the buffer of a byte list
(20_memory.md R28, R29, R38). -/

namespace Sys2Proof.Proofs

open Sys2Proof Sys2Proof.Machine Sys2Proof.Laws

theorem lookupCell_cons (x j : Nat) (u : Byte) (rest : List Host.Cell) :
    lookupCell x ((j, u) :: rest) = if j = x then u else lookupCell x rest := rfl

/-- A canonical list holds nothing below its lower bound. -/
theorem lookupCell_of_lt {len lo x : Nat} {cells : List Host.Cell} (hx : x < lo) (hc : cellsWf len lo cells = true) :
    lookupCell x cells = 0#8 := by
  induction cells generalizing lo with
  | nil => rfl
  | cons c rest ih =>
    obtain ⟨j, u⟩ := c
    obtain ⟨hlo, -, -, hrest⟩ := (cellsWf_cons ..).mp hc
    rw [lookupCell_cons, if_neg (by omega), ih (by omega) hrest]

/-- Not listing the byte 0 loses nothing, where the rest holds nothing at its index. -/
theorem lookupCell_consCell {i : Nat} {rest : List Host.Cell} (hrest : lookupCell i rest = 0#8) (x : Nat) (v : Byte) :
    lookupCell x (consCell i v rest) = if i = x then v else lookupCell x rest := by
  unfold consCell
  split
  case isTrue hv =>
    split
    case isTrue hx => rw [← hx, hrest, hv]
    case isFalse hx => rfl
  case isFalse hv => exact lookupCell_cons ..

/-- Replacing the byte at index `i` changes what is found there, and nothing else. -/
theorem lookupCell_putCell {len lo : Nat} {cells : List Host.Cell} (hc : cellsWf len lo cells = true) (i x : Nat)
    (v : Byte) : lookupCell x (putCell i v cells) = if i = x then v else lookupCell x cells := by
  induction cells generalizing lo with
  | nil => exact lookupCell_consCell rfl x v
  | cons c rest ih =>
    obtain ⟨j, u⟩ := c
    obtain ⟨hlo, hj, hu, hrest⟩ := (cellsWf_cons ..).mp hc
    rw [putCell]
    split
    case isTrue hij =>
      have habove : cellsWf len j ((j, u) :: rest) = true := (cellsWf_cons ..).mpr ⟨le_rfl, hj, hu, hrest⟩
      exact lookupCell_consCell (lookupCell_of_lt hij habove) x v
    case isFalse hij =>
      split
      case isTrue heq =>
        subst heq
        rw [lookupCell_consCell (lookupCell_of_lt (Nat.lt_succ_self i) hrest), lookupCell_cons]
        split <;> rfl
      case isFalse hne =>
        rw [lookupCell_cons, lookupCell_cons, ih hrest]
        split
        · rw [if_neg (by omega)]
        · rfl

/-- A host write gives a buffer exactly for an index below LEN. -/
theorem write_eq_some_iff (m m' : Memory) (i : Nat) (v : Byte) :
    m.write i v = some m' ↔ i < m.len ∧ m' = { m with cells := putCell i v m.cells } := by
  unfold Memory.write
  split <;> simp_all [eq_comm]

/-- Settles O43: a write replaces the listed byte at its index, and keeps LEN. -/
theorem hostWriteChangesOneByte : Obligations.HostWriteChangesOneByte := by
  intro m m' i v hwf hw x
  obtain ⟨hi, rfl⟩ := (write_eq_some_iff ..).mp hw
  have hcell := lookupCell_putCell hwf i x v
  by_cases hx : x = i
  · subst hx
    rw [if_pos rfl] at hcell ⊢
    exact (read_eq_some_iff ..).mpr ⟨hi, hcell⟩
  · rw [if_neg (Ne.symm hx)] at hcell
    rw [if_neg hx, Memory.read, Memory.read, hcell]

/-- The cells of a byte list hold its bytes, and 0 after its end. -/
theorem lookupCell_cellsFrom (bytes : List Byte) (i x : Nat) :
    lookupCell (i + x) (cellsFrom i bytes) = bytes[x]?.getD 0#8 := by
  induction bytes generalizing i x with
  | nil => rfl
  | cons v rest ih =>
    have hbelow : lookupCell i (cellsFrom (i + 1) rest) = 0#8 :=
      lookupCell_of_lt (Nat.lt_succ_self i) (cellsFrom_wf _ rest (i + 1) le_rfl)
    rw [cellsFrom, lookupCell_consCell hbelow]
    cases x with
    | zero => simp
    | succ x =>
      rw [if_neg (by omega), show i + (x + 1) = i + 1 + x by omega, ih, List.getElem?_cons_succ]

/-- Settles O44: below LEN the cells hold the list's byte, and from LEN on there is no byte. -/
theorem bufferOfAByteListReadsTheList : Obligations.BufferOfAByteListReadsTheList := by
  intro bytes i
  by_cases hi : i < bytes.length
  · have hcell : lookupCell i (cellsFrom 0 bytes) = bytes[i] := by
      simpa [hi] using lookupCell_cellsFrom bytes 0 i
    rw [List.getElem?_eq_getElem hi]
    exact (read_eq_some_iff ..).mpr ⟨hi, hcell⟩
  · rw [List.getElem?_eq_none (Nat.le_of_not_lt hi)]
    exact read_of_le (Nat.le_of_not_lt hi)

end Sys2Proof.Proofs
end

section
/-! SUPPORT. Several instances: every step of an instance gives a next state, and it is an update of that instance alone
(20_memory.md R43, 60_exceptions.md R103). -/

namespace Sys2Proof.Proofs

open Sys2Proof Sys2Proof.Machine Sys2Proof.Laws

/-- The state after one step, which every state has. -/
def stepped (s : State) : State :=
  if s.inFlight then respond (decodedOutcome s (decode s.cmd)) s else s

theorem step_eq_stepped (s : State) : step s = .next (stepped s) := by
  unfold stepped
  split
  case isTrue hf => exact step_eq_respond hf
  case isFalse hf => exact step_of_idle (by simpa using hf)

/-- A step of instance `k` never stops, and modifies the entry `k` of the list only. -/
theorem stepInstance_eq (k : Nat) (system : List State) :
    stepInstance k system = some (system.modify k stepped) := by
  rw [stepInstance]
  cases hs : system[k]? with
  | none => simp [List.modify_eq_set_getElem?, hs]
  | some s => simp [List.modify_eq_set_getElem?, hs, step_eq_stepped]

/-- Settles O47: the steps are updates of single entries of the list, which commute. -/
theorem instancesDoNotInteract : Obligations.InstancesDoNotInteract := by
  refine ⟨fun j k system next hjk h => ?_, fun j k system => ?_⟩
  · rw [stepInstance_eq] at h
    cases h
    exact List.getElem?_modify_ne _ _ hjk.symm
  · by_cases hjk : j = k
    · rw [hjk]
    · simp only [stepInstance_eq, Option.bind_some]
      rw [List.modify_modify_ne _ _ _ hjk]

end Sys2Proof.Proofs
end

section
/-! SUPPORT. An iteration of the full-word loop beside the STEP16 command (42_crc_word_serial.md R81, R82). -/

namespace Sys2Proof.Proofs

open Sys2Proof Sys2Proof.Machine Sys2Proof.Laws

/-- The first byte of a 16-bit unit is the low one (20_memory.md R31). -/
theorem lowByte_unit (hi lo : Byte) : lowByte ((hi ++ lo).setWidth 32) = lo := by
  refine BitVec.eq_of_getLsbD_eq fun j hj => ?_
  rw [lowByte, BitVec.getLsbD_extractLsb', BitVec.getLsbD_setWidth, BitVec.getLsbD_append]
  simp [hj, show j < 32 by omega]

theorem highByte_unit (hi lo : Byte) : highByte ((hi ++ lo).setWidth 32) = hi := by
  refine BitVec.eq_of_getLsbD_eq fun j hj => ?_
  rw [highByte, BitVec.getLsbD_extractLsb', BitVec.getLsbD_setWidth, BitVec.getLsbD_append]
  simp [hj, show 8 + j < 32 by omega]

/-- A full-word transition on the two bytes that the buffer reads at the cursor. -/
theorem wordStep_of_read {s : State} {e : Engine} {scale8 : Word} {b0 b1 : Byte} (he : s.engine = some e)
    (hs : e.scale8 = some scale8) (h0 : s.buf.read e.pos = some b0) (h1 : s.buf.read (e.pos + 1) = some b1) :
    wordStep s = .next { s with engine := some { e with
      crc := wordTransition s.a scale8 e.crc b0 b1, pos := e.pos + 2 } } := by
  obtain ⟨-, rfl⟩ := (read_eq_some_iff ..).mp h0
  obtain ⟨hlt, rfl⟩ := (read_eq_some_iff ..).mp h1
  exact wordStep_of_lt he hs hlt

/-- Settles O32: both make the full-word transition with the same `scale8`, on the same two bytes. -/
theorem wordTransitionIsStep16 : Obligations.WordTransitionIsStep16 := by
  intro s e lo hi he hs hlo hhi
  refine ⟨wordTransition s.a (scaleByEight s.a) e.crc lo hi, ?_, wordStep_of_read he hs hlo hhi⟩
  rw [exec_eq_respond, commandOutcome, lowByte_unit, highByte_unit]
  rfl

end Sys2Proof.Proofs
end

section
/-! SUPPORT. Which bits a CRC result depends on: the message's bits are the stream's, last bit lowest, and a word keeps
32 of them (41_crc_byte_serial.md R72, R73). -/

namespace Sys2Proof.Proofs

open Sys2Proof Sys2Proof.Machine Sys2Proof.Laws

/-- Bit `j` of the message is the stream bit `j` places before the last. -/
theorem testBit_message (m : Memory) (n j : Nat) :
    (message m n).testBit j = (decide (j < n) && streamBit m (n - 1 - j)) := by
  induction n generalizing j with
  | zero => simp [message_zero]
  | succ n ih =>
    have hdigit := Nat.testBit_two_pow_mul_add (message m n) (i := 1) (Bool.toNat_lt (streamBit m n)) j
    rw [message_succ, ← pow_one 2, hdigit]
    cases j with
    | zero => cases hlast : streamBit m n <;> simp [hlast]
    | succ j => simp [ih, show n - 1 - j = n - (j + 1) by omega]

/-- A word keeps the last 32 stream bits of a message. -/
theorem ofNat_message_congr {m m' : Memory} {n : Nat}
    (h : ∀ q, q < n → n ≤ q + 32 → streamBit m' q = streamBit m q) :
    BitVec.ofNat 32 (message m' n) = BitVec.ofNat 32 (message m n) := by
  refine BitVec.eq_of_getLsbD_eq fun j hj => ?_
  rw [BitVec.getLsbD_ofNat, BitVec.getLsbD_ofNat, testBit_message, testBit_message]
  by_cases hjn : j < n
  · rw [h (n - 1 - j) (by omega) (by omega)]
  · simp [hjn]

/-- The initial condition's term of R72 is a truncated shift. -/
theorem ofNat_initialTerm (b : Word) (n : Nat) : BitVec.ofNat 32 (b.toNat * 2 ^ n) = b <<< n := by
  rw [ofNat_mul_two_pow, BitVec.ofNat_toNat, BitVec.setWidth_eq]

/-- From 32 stream bits on, the initial condition is shifted out of the register. -/
theorem initialTerm_congr {b b' : Word} {n : Nat} (h : n < 32 → b' = b) : b' <<< n = b <<< n := by
  by_cases hn : n < 32
  · rw [h hn]
  · rw [BitVec.shiftLeft_eq_zero (Nat.le_of_not_lt hn), BitVec.shiftLeft_eq_zero (Nat.le_of_not_lt hn)]

/-- The closed form depends on the last 32 stream bits, and below 32 bits on the initial condition. -/
theorem closedRegister_congr {s s' : State} (ha : s'.a = s.a) (hn : s'.n = s.n) (hb : s.n.toNat < 32 → s'.b = s.b)
    (hq : ∀ q, q < s.n.toNat → s.n.toNat ≤ q + 32 → streamBit s'.buf q = streamBit s.buf q) :
    closedRegister s' = closedRegister s := by
  rw [closedRegister, closedRegister, ha, hn, ofNat_initialTerm, ofNat_initialTerm, initialTerm_congr hb,
    ofNat_message_congr hq]

/-- Where none of its faults applies, either CRC command delivers the closed form, shifted to its width (R72, R89). -/
theorem exec_crc_eq_result {w : BitVec 6} {i : Instr} {s : State} (hi : i = .crcb w ∨ i = .crcw w) (hw : 1 ≤ w.toNat)
    (hw' : w.toNat ≤ 32) (hn : s.n.toNat ≤ 8 * s.buf.len) :
    exec i s = .next { s with
      inFlight := false, engine := none, response := some (.result (outShift w.toNat (closedRegister s))) } := by
  have hcommand : commandOutcome s i = crcOutcome w s := by
    obtain rfl | rfl := hi <;> rfl
  have hresult : crcOutcome w s = .result (outShift w.toNat (closedRegister s)) := by
    simp [crcOutcome, widthOk, bitCountOk, hw, hw', hn]
  rw [exec_eq_respond, hcommand, hresult]
  rfl

/-- Settles O25: all four results are the shifted closed form, which is the same for both states. -/
theorem onlyTheLastThirtyTwoStreamBitsMatter : Obligations.OnlyTheLastThirtyTwoStreamBitsMatter := by
  intro w s s' hw hw' ha hn hb hlen hlen' hq
  have hreg : closedRegister s' = closedRegister s := closedRegister_congr ha hn hb hq
  refine ⟨outShift w.toNat (closedRegister s), ?_, ?_, ?_, ?_⟩
  · exact exec_crc_eq_result (.inl rfl) hw hw' hlen
  · rw [exec_crc_eq_result (.inl rfl) hw hw' (by rwa [hn]), hreg]
  · exact exec_crc_eq_result (.inr rfl) hw hw' hlen
  · rw [exec_crc_eq_result (.inr rfl) hw hw' (by rwa [hn]), hreg]

end Sys2Proof.Proofs
end

section
/-! SUPPORT. Where a field stands in a command word: the word is its bits outside the field's place, beside the field
put back there (30_encoding.md R44, R50). -/

namespace Sys2Proof.Proofs

open Sys2Proof

/-- The bits of a command word at the place of a field of `n` bits whose lowest is bit `lo`. -/
def fieldMask (lo n : Nat) : Word := (BitVec.allOnes n).setWidth 32 <<< lo

/-- A field that fits in the word is read back from its place. -/
theorem extractLsb'_placed {lo n : Nat} (hfit : lo + n ≤ 32) (v : BitVec n) :
    (v.setWidth 32 <<< lo).extractLsb' lo n = v := by
  refine BitVec.eq_of_getLsbD_eq fun j hj => ?_
  simp [hj, show lo + j < 32 by omega]

/-- The bits of a word at a field's place are the field, put back there. -/
theorem and_fieldMask (x : Word) (lo n : Nat) :
    x &&& fieldMask lo n = (x.extractLsb' lo n).setWidth 32 <<< lo := by
  refine BitVec.eq_of_getLsbD_eq fun j hj => ?_
  by_cases hlo : j < lo
  · simp [fieldMask, hlo]
  · have hbit : lo + (j - lo) = j := by omega
    simp [fieldMask, hlo, hj, hbit, Bool.and_comm]

theorem placed_and_not_fieldMask {lo n : Nat} (hfit : lo + n ≤ 32) (v : BitVec n) :
    v.setWidth 32 <<< lo &&& ~~~fieldMask lo n = 0#32 := by
  have hplace : v.setWidth 32 <<< lo &&& fieldMask lo n = v.setWidth 32 <<< lo := by
    rw [and_fieldMask, extractLsb'_placed hfit]
  rw [← hplace, BitVec.and_assoc, BitVec.and_not_self]
  exact BitVec.and_zero

theorem and_not_fieldMask_or_placed (x : Word) (lo n : Nat) :
    x &&& ~~~fieldMask lo n ||| (x.extractLsb' lo n).setWidth 32 <<< lo = x := by
  rw [← and_fieldMask, ← BitVec.and_or_distrib_left, BitVec.or_comm, BitVec.or_not_self, BitVec.and_allOnes]

/-- A word is `op` beside the field `v` exactly where it is `op` outside the field's place and `v` in it. -/
theorem or_placed_eq_iff {lo n : Nat} (hfit : lo + n ≤ 32) {op : Word} (hop : op.extractLsb' lo n = 0#n)
    (v : BitVec n) (cmd : Word) :
    op ||| v.setWidth 32 <<< lo = cmd ↔ cmd &&& ~~~fieldMask lo n = op ∧ v = cmd.extractLsb' lo n := by
  constructor
  · rintro rfl
    have hout : op &&& ~~~fieldMask lo n = op := by
      simpa [hop] using and_not_fieldMask_or_placed op lo n
    constructor
    · rw [BitVec.and_or_distrib_right, hout, placed_and_not_fieldMask hfit, BitVec.or_zero]
    · rw [BitVec.extractLsb'_or, hop, extractLsb'_placed hfit, BitVec.zero_or]
  · rintro ⟨rfl, rfl⟩
    exact and_not_fieldMask_or_placed cmd lo n

end Sys2Proof.Proofs
end

section
/-! SUPPORT. The decoder as the inverse of the encoder: a word decodes to a command exactly where it matches the
command's row of the opcode map, and that is exactly where it is the command's word (30_encoding.md R49 to R53). -/

namespace Sys2Proof.Proofs

open Sys2Proof Sys2Proof.Machine

/-- The operation of a command (R49). -/
def opcode : Instr → BitVec 4
  | .gmpy => 0#4
  | .crcb _ => 1#4
  | .crcw _ => 2#4
  | .step _ => 3#4
  | .step16 => 4#4
  | .align _ => 5#4
  | .oshift _ => 6#4

/-- The fields W and K of a word are those of the command, as far as it has them. -/
def hasFields (w : BitVec 6) (k : BitVec 4) : Instr → Prop
  | .gmpy => True
  | .crcb w' => w' = w
  | .crcw w' => w' = w
  | .step k' => k' = k
  | .step16 => True
  | .align k' => k' = k
  | .oshift w' => w' = w

/-- The word is in the command's row: it matches under the row's mask (R50), and has the command's fields. -/
def matchesRow (cmd : Word) (i : Instr) : Prop :=
  cmd &&& tableMask (opcode i).toNat = (opcode i).setWidth 32 ∧ hasFields (widthField cmd) (chunkField cmd) i

theorem opcodeRow_eq_some_iff (op : BitVec 4) (w : BitVec 6) (k : BitVec 4) (mask : Word) (i : Instr) :
    opcodeRow op w k = some (mask, i) ↔ op = opcode i ∧ mask = tableMask (opcode i).toNat ∧ hasFields w k i := by
  constructor
  · intro h
    unfold opcodeRow at h
    split at h <;> cases h <;> exact ⟨BitVec.eq_of_toNat_eq ‹_›, rfl, by simp [hasFields]⟩
  · rintro ⟨rfl, rfl, hfields⟩
    cases i <;> cases hfields <;> rfl

theorem opcodeRow_eq_none_iff (op : BitVec 4) (w : BitVec 6) (k : BitVec 4) :
    opcodeRow op w k = none ↔ 7 ≤ op.toNat := by
  unfold opcodeRow
  split
  case h_8 => simp_all; omega
  all_goals simp [*]

theorem opcode_lt (i : Instr) : (opcode i).toNat < 7 := by
  cases i <;> simp [opcode]

/-- Every row's mask covers the operation field. -/
theorem opField_tableMask : ∀ op : BitVec 4, op.toNat < 7 → opField (tableMask op.toNat) = BitVec.allOnes 4 := by
  decide

theorem opField_setWidth : ∀ op : BitVec 4, opField (op.setWidth 32) = op := by
  decide

/-- A word that matches a row under its mask has the row's operation. -/
theorem opField_of_match {cmd : Word} {i : Instr}
    (h : cmd &&& tableMask (opcode i).toNat = (opcode i).setWidth 32) : opField cmd = opcode i := by
  calc opField cmd = opField cmd &&& opField (tableMask (opcode i).toNat) := by
        rw [opField_tableMask _ (opcode_lt i), BitVec.and_allOnes]
    _ = opField (cmd &&& tableMask (opcode i).toNat) := BitVec.extractLsb'_and.symm
    _ = opcode i := by rw [h, opField_setWidth]

/-- The decoder on an operation with no row (R53). -/
theorem decode_of_no_row {cmd : Word}
    (h : opcodeRow (opField cmd) (widthField cmd) (chunkField cmd) = none) : decode cmd = .illegalOp := by
  rw [decode, h]

/-- The decoder on an operation with a row: the row's mask decides (R50). -/
theorem decode_of_row {cmd mask : Word} {i : Instr}
    (h : opcodeRow (opField cmd) (widthField cmd) (chunkField cmd) = some (mask, i)) :
    decode cmd = if cmd &&& mask = (opField cmd).setWidth 32 then .instr i else .reservedField := by
  rw [decode, h]

theorem decode_eq_instr_iff_opcodeRow (cmd : Word) (i : Instr) :
    decode cmd = .instr i ↔ ∃ mask, opcodeRow (opField cmd) (widthField cmd) (chunkField cmd) = some (mask, i) ∧
      cmd &&& mask = (opField cmd).setWidth 32 := by
  cases hrow : opcodeRow (opField cmd) (widthField cmd) (chunkField cmd) with
  | none => simp [decode_of_no_row hrow]
  | some row =>
    rw [decode_of_row hrow]
    split <;> simp [Prod.ext_iff, *]

/-- A word decodes to a command exactly where it is in the command's row (R50). -/
theorem decode_eq_instr_iff_matchesRow (cmd : Word) (i : Instr) : decode cmd = .instr i ↔ matchesRow cmd i := by
  simp only [decode_eq_instr_iff_opcodeRow, opcodeRow_eq_some_iff]
  constructor
  · rintro ⟨mask, ⟨hop, rfl, hfields⟩, hmatch⟩
    exact ⟨hop ▸ hmatch, hfields⟩
  · rintro ⟨hmatch, hfields⟩
    have hop := opField_of_match hmatch
    exact ⟨_, ⟨hop, rfl, hfields⟩, hop ▸ hmatch⟩

theorem or_widthField_eq_iff {op : Word} (hop : widthField op = 0#6) (w : BitVec 6) (cmd : Word) :
    op ||| w.setWidth 32 <<< 4 = cmd ↔ cmd &&& 0xFFFFFC0F#32 = op ∧ w = widthField cmd := by
  have hmask : 0xFFFFFC0F#32 = ~~~fieldMask 4 6 := by decide
  rw [hmask]
  exact or_placed_eq_iff (by decide) hop w cmd

theorem or_chunkField_eq_iff {op : Word} (hop : chunkField op = 0#4) (k : BitVec 4) (cmd : Word) :
    op ||| k.setWidth 32 <<< 10 = cmd ↔ cmd &&& 0xFFFFC3FF#32 = op ∧ k = chunkField cmd := by
  have hmask : 0xFFFFC3FF#32 = ~~~fieldMask 10 4 := by decide
  rw [hmask]
  exact or_placed_eq_iff (by decide) hop k cmd

/-- The word of a command without fields: its row's mask keeps every bit. -/
theorem eq_iff_and_allOnes_eq (op cmd : Word) : op = cmd ↔ cmd &&& 0xFFFFFFFF#32 = op ∧ True := by
  have hmask : cmd &&& 0xFFFFFFFF#32 = cmd := BitVec.and_allOnes
  rw [hmask, and_true, eq_comm]

/-- A word is a command's word exactly where it is in the command's row. -/
theorem encode_eq_iff_matchesRow (i : Instr) (cmd : Word) : encode i = cmd ↔ matchesRow cmd i := by
  cases i with
  | gmpy => exact eq_iff_and_allOnes_eq _ cmd
  | crcb w => exact or_widthField_eq_iff (by decide) w cmd
  | crcw w => exact or_widthField_eq_iff (by decide) w cmd
  | step k => exact or_chunkField_eq_iff (by decide) k cmd
  | step16 => exact eq_iff_and_allOnes_eq _ cmd
  | align k => exact or_chunkField_eq_iff (by decide) k cmd
  | oshift w => exact or_widthField_eq_iff (by decide) w cmd

/-- The decoder gives a command for the command's word and for no other word. -/
theorem decode_eq_instr_iff_encode_eq (cmd : Word) (i : Instr) : decode cmd = .instr i ↔ encode i = cmd := by
  rw [decode_eq_instr_iff_matchesRow, encode_eq_iff_matchesRow]

/-- Settles O1: the word of a command is the command's word. -/
theorem decodeOfEncodeGivesTheCommand : Obligations.DecodeOfEncodeGivesTheCommand :=
  fun i => (decode_eq_instr_iff_encode_eq (encode i) i).mpr rfl

/-- Settles O2: no other word decodes to the command. -/
theorem encodeOfDecodedGivesTheWord : Obligations.EncodeOfDecodedGivesTheWord :=
  fun cmd i => (decode_eq_instr_iff_encode_eq cmd i).mp

theorem decode_ne_instr_iff (cmd : Word) :
    (∀ i, decode cmd ≠ .instr i) ↔ decode cmd = .illegalOp ∨ decode cmd = .reservedField := by
  cases decode cmd <;> simp

/-- Settles O3: each clause is a row of the opcode map. -/
theorem rowsDecodeByMatchAndMask : Obligations.RowsDecodeByMatchAndMask := by
  intro cmd
  have hrow (i : Instr) := decode_eq_instr_iff_matchesRow cmd i
  have hfieldless {i : Instr} (h : hasFields (widthField cmd) (chunkField cmd) i) :=
    (hrow i).trans (and_iff_left h)
  exact ⟨hfieldless (i := .gmpy) trivial, fun w => hrow (.crcb w), fun w => hrow (.crcw w), fun k => hrow (.step k),
    hfieldless (i := .step16) trivial, fun k => hrow (.align k), fun w => hrow (.oshift w), decode_ne_instr_iff cmd⟩

theorem decode_eq_illegalOp_iff (cmd : Word) : decode cmd = .illegalOp ↔ 7 ≤ (opField cmd).toNat := by
  rw [← opcodeRow_eq_none_iff (opField cmd) (widthField cmd) (chunkField cmd)]
  cases hrow : opcodeRow (opField cmd) (widthField cmd) (chunkField cmd) with
  | none => simp [decode_of_no_row hrow]
  | some row =>
    rw [decode_of_row hrow]
    split <;> simp

/-- Settles O8: a step in flight on either rejection. -/
theorem stepReportsDecodeFaults : Obligations.StepReportsDecodeFaults :=
  fun _ hf => ⟨step_of_illegalOp hf, step_of_reservedField hf⟩

/-- Settles O4: OP from 7 on is the first rejection, and the decoder has no answer but a command and two rejections. -/
theorem opcodesFromSevenFaultIllegal : Obligations.OpcodesFromSevenFaultIllegal := by
  intro s hf
  refine ⟨fun hop => step_of_illegalOp hf ((decode_eq_illegalOp_iff s.cmd).mpr hop), ?_⟩
  cases hd : decode s.cmd with
  | instr i => exact .inl ⟨i, rfl⟩
  | illegalOp => exact .inr ⟨.illegalOp, step_of_illegalOp hf hd⟩
  | reservedField => exact .inr ⟨.reservedField, step_of_reservedField hf hd⟩

/-- Settles O5: nine words that the decoder evaluates. -/
theorem specWordsDecodeAsWritten : Obligations.SpecWordsDecodeAsWritten := by
  unfold Obligations.SpecWordsDecodeAsWritten
  decide

end Sys2Proof.Proofs
end

section
/-! SUPPORT. The pseudo-instructions: each is one command presented to the block (30_encoding.md R55). -/

namespace Sys2Proof.Proofs

open Sys2Proof Sys2Proof.Machine Sys2Proof.Laws

/-- A presented transaction whose word is a command's has that command's outcome. -/
theorem outcomeOf_step_present {t : Transaction} {i : Instr} (hcmd : t.cmd = encode i) (s : State) :
    outcomeOf (step (present t s)) = some (commandOutcome (present t s) i) := by
  have hd : decode (present t s).cmd = .instr i := by
    rw [present_cmd, hcmd, decodeOfEncodeGivesTheCommand]
  rw [step_of_instr (present_inFlight t s) hd, exec_eq_respond]
  rfl

/-- Settles O46: FOLD and SCALE8 multiply by a power of two, STEP8 makes an 8-bit transition, FINAL is the output
shift. -/
theorem pseudoInstructionsHaveTheirMeaning : Obligations.PseudoInstructionsHaveTheirMeaning := by
  intro s
  refine ⟨fun k x => ?fold, fun poly => ?scale8, fun poly v crc => ?step8, fun w x hw hw' => ?final⟩
  case fold =>
    rw [← gmpy_one_shiftLeft]
    exact outcomeOf_step_present (i := .gmpy) rfl s
  case scale8 =>
    rw [← gmpy_one_shiftLeft]
    exact outcomeOf_step_present (i := .gmpy) rfl s
  case step8 =>
    rw [← transition_eq]
    exact outcomeOf_step_present (i := .step 8#4) rfl s
  case final =>
    have hok : widthOk w = true := by simp [widthOk, hw, hw']
    rw [outcomeOf_step_present (i := .oshift w) rfl s, commandOutcome, hok]
    rfl

end Sys2Proof.Proofs
end

section
/-! SUPPORT. The galois multiply as the product of GF(2) polynomials modulo x^32: its coefficients, what it does to a
linear map that keeps shifts, and from that the ring laws (40_galois_multiply.md R58 to R62). -/

namespace Sys2Proof.Proofs

open Sys2Proof Sys2Proof.Machine Sys2Proof.Laws

/-- Clear terms at the end of a XOR-sum can be left out. -/
theorem xorBelow_eq_of_clear_from {f : Nat → Bool} {m n : Nat} (hmn : m ≤ n)
    (hclear : ∀ i, m ≤ i → i < n → f i = false) : xorBelow f n = xorBelow f m := by
  induction n, hmn using Nat.le_induction with
  | base => rfl
  | succ n hmn ih =>
    rw [xorBelow_succ, hclear n hmn n.lt_succ_self, Bool.xor_false]
    exact ih fun i hi hin => hclear i hi (by omega)

theorem partialProduct_getLsbD_of_lt (a b : Word) {i j : Nat} (h : j < i) :
    (partialProduct a b i).getLsbD j = false := by
  unfold partialProduct
  split <;> simp [h]

theorem partialProduct_getLsbD_of_le (a b : Word) {i j : Nat} (h : i ≤ j) (hj : j < 32) :
    (partialProduct a b i).getLsbD j = (a.getLsbD (j - i) && b.getLsbD i) := by
  unfold partialProduct
  split
  case isTrue hb =>
    rw [BitVec.getLsbD_shiftLeft]
    simp [h, hj, hb]
  case isFalse hb => simp [hb]

theorem gmpyUpTo_getLsbD (a b : Word) (n j : Nat) :
    (gmpyUpTo a b n).getLsbD j = xorBelow (fun i => (partialProduct a b i).getLsbD j) n := by
  induction n with
  | zero => exact BitVec.getLsbD_zero
  | succ n ih => rw [gmpyUpTo_succ_eq_xor, BitVec.getLsbD_xor, ih, xorBelow_succ]

/-- The coefficient of x^j in the product (R59): the partial products above `j` do not reach it. -/
theorem gmpy_getLsbD (a b : Word) {j : Nat} (hj : j < 32) :
    (gmpy a b).getLsbD j = xorBelow (fun i => a.getLsbD (j - i) && b.getLsbD i) (j + 1) :=
  calc (gmpy a b).getLsbD j = xorBelow (fun i => (partialProduct a b i).getLsbD j) 32 := gmpyUpTo_getLsbD a b 32 j
    _ = xorBelow (fun i => (partialProduct a b i).getLsbD j) (j + 1) :=
      xorBelow_eq_of_clear_from hj fun _ hi _ => partialProduct_getLsbD_of_lt a b hi
    _ = xorBelow (fun i => a.getLsbD (j - i) && b.getLsbD i) (j + 1) :=
      xorBelow_congr fun _ hi => partialProduct_getLsbD_of_le a b (Nat.le_of_lt_succ hi) hj

/-- In coefficient `j` of `1 * b` only the term of `b`'s own bit `j` is left. -/
theorem one_gmpy (b : Word) : gmpy 1#32 b = b := by
  refine BitVec.eq_of_getLsbD_eq fun j hj => ?_
  have hlower : xorBelow (fun i => (1#32).getLsbD (j - i) && b.getLsbD i) j = false :=
    xorBelow_eq_of_clear_from (Nat.zero_le j) fun i _ hi => by
      have : j - i ≠ 0 := by omega
      simp [BitVec.getLsbD_one, this]
  rw [gmpy_getLsbD _ _ hj, xorBelow_succ, hlower]
  simp

section LinearMap

variable {f : Word → Word} (hxor : ∀ x y, f (x ^^^ y) = f x ^^^ f y)
  (hshift : ∀ (x : Word) (k : Nat), f (x <<< k) = f x <<< k)

include hxor

theorem map_zero_of_map_xor : f 0#32 = 0#32 := by
  have h := hxor 0#32 0#32
  rwa [BitVec.xor_self, BitVec.xor_self] at h

include hshift

theorem map_partialProduct (a b : Word) (i : Nat) : f (partialProduct a b i) = partialProduct (f a) b i := by
  unfold partialProduct
  split
  · exact hshift a i
  · exact map_zero_of_map_xor hxor

theorem map_gmpyUpTo (a b : Word) (n : Nat) : f (gmpyUpTo a b n) = gmpyUpTo (f a) b n := by
  induction n with
  | zero => exact map_zero_of_map_xor hxor
  | succ n ih =>
    rw [gmpyUpTo_succ_eq_xor, hxor, ih, map_partialProduct hxor hshift, ← gmpyUpTo_succ_eq_xor]

/-- A map that keeps XOR and left shifts passes through the multiply to its first operand. -/
theorem map_gmpy (a b : Word) : f (gmpy a b) = gmpy (f a) b :=
  map_gmpyUpTo hxor hshift a b 32

end LinearMap

theorem partialProduct_xor_left (x y b : Word) (i : Nat) :
    partialProduct (x ^^^ y) b i = partialProduct x b i ^^^ partialProduct y b i := by
  unfold partialProduct
  split
  · exact BitVec.shiftLeft_xor_distrib ..
  · simp

theorem gmpyUpTo_xor_left (x y b : Word) (n : Nat) :
    gmpyUpTo (x ^^^ y) b n = gmpyUpTo x b n ^^^ gmpyUpTo y b n := by
  induction n with
  | zero => simp [gmpyUpTo_zero]
  | succ n ih =>
    rw [gmpyUpTo_succ_eq_xor, gmpyUpTo_succ_eq_xor, gmpyUpTo_succ_eq_xor, ih, partialProduct_xor_left]
    ac_rfl

theorem gmpy_xor_left (x y b : Word) : gmpy (x ^^^ y) b = gmpy x b ^^^ gmpy y b :=
  gmpyUpTo_xor_left x y b 32

/-- Multiplication by `a` on the left is a map that `map_gmpy` takes. -/
theorem gmpy_assoc (a b c : Word) : gmpy (gmpy a b) c = gmpy a (gmpy b c) :=
  (map_gmpy (gmpy_xor_right a) (gmpy_shiftLeft_right a) b c).symm

/-- Multiplication by `b` on the right is a map that `map_gmpy` takes; it is applied to `a = 1 * a`. -/
theorem gmpy_comm (a b : Word) : gmpy a b = gmpy b a :=
  calc gmpy a b = gmpy (gmpy 1#32 a) b := by rw [one_gmpy]
    _ = gmpy (gmpy 1#32 b) a :=
      map_gmpy (f := (gmpy · b)) (gmpy_xor_left · · b) (gmpy_shiftLeft_left · b ·) 1#32 a
    _ = gmpy b a := by rw [one_gmpy]

theorem zero_gmpy (b : Word) : gmpy 0#32 b = 0#32 := by
  rw [gmpy_comm, gmpy_zero]

/-- The only bit that a shift by 31 keeps is bit 0. -/
theorem shiftLeft_thirtyOne_of_even {b : Word} (h : b.toNat % 2 = 0) : b <<< 31 = 0#32 := by
  apply BitVec.eq_of_toNat_eq
  rw [BitVec.toNat_shiftLeft, Nat.shiftLeft_eq, BitVec.toNat_zero]
  omega

/-- `x^31` is a zero divisor, so it is not invertible (R61). -/
theorem msb_gmpy_of_even {b : Word} (h : b.toNat % 2 = 0) : gmpy 0x80000000#32 b = 0#32 :=
  calc gmpy 0x80000000#32 b = gmpy b (1#32 <<< 31) := gmpy_comm ..
    _ = b <<< 31 := gmpy_one_shiftLeft b 31
    _ = 0#32 := shiftLeft_thirtyOne_of_even h

/-- Settles O12: GMPY ends with its product in every state, and the product has the coefficients of R59. -/
theorem gmpyDeliversTheTruncatedProduct : Obligations.GmpyDeliversTheTruncatedProduct :=
  fun s => ⟨exec_eq_respond .gmpy s, fun _ => gmpy_getLsbD s.a s.b⟩

/-- Settles O13: the coefficients, and the ring laws as they stand above. -/
theorem gmpyIsTheTruncatedPolynomialRing : Obligations.GmpyIsTheTruncatedPolynomialRing :=
  ⟨fun a b _ => gmpy_getLsbD a b, gmpy_comm, gmpy_assoc, gmpy_xor_right, gmpy_one, gmpy_zero, zero_gmpy,
    fun _ => msb_gmpy_of_even⟩

/-- Settles O14: one multiplication by a power of two is a shift, and two shifts add. -/
theorem gmpyByAPowerOfTwoIsAShift : Obligations.GmpyByAPowerOfTwoIsAShift := by
  refine ⟨fun a k => gmpy_one_shiftLeft a k.val, fun c => ?twoFolds⟩
  case twoFolds =>
    rw [gmpy_one_shiftLeft, gmpy_one_shiftLeft, ← BitVec.shiftLeft_add]

end Sys2Proof.Proofs
end

section
/-! SUPPORT. STEP and ALIGN where their chunk count is legal, and an engine's byte transition as the two in a row
(41_crc_byte_serial.md R67 to R69, 43_bit_alignment_helpers.md R90). -/

namespace Sys2Proof.Proofs

open Sys2Proof Sys2Proof.Machine Sys2Proof.Laws

theorem chunkOk_of_range {k : BitVec 4} (hk : 1 ≤ k.toNat) (hk' : k.toNat ≤ 8) : chunkOk k = true :=
  decide_eq_true ⟨hk, hk'⟩

theorem exec_step_eq_result {k : BitVec 4} (hk : 1 ≤ k.toNat) (hk' : k.toNat ≤ 8) (s : State) :
    exec (.step k) s = .next { s with
      inFlight := false, engine := none, response := some (.result (transition s.a s.b s.c k.toNat)) } := by
  rw [exec_eq_respond, commandOutcome, chunkOk_of_range hk hk']
  rfl

theorem exec_align_eq_result {k : BitVec 4} (hk : 1 ≤ k.toNat) (hk' : k.toNat ≤ 8) (s : State) :
    exec (.align k) s = .next { s with
      inFlight := false, engine := none, response := some (.result (alignByte k.toNat (lowByte s.b))) } := by
  rw [exec_eq_respond, commandOutcome, chunkOk_of_range hk hk']
  rfl

/-- Settles O15: the fold of a transition is a shift. -/
theorem stepDeliversTheTransition : Obligations.StepDeliversTheTransition := by
  intro k s hk hk'
  rw [exec_step_eq_result hk hk', transition_eq]

/-- A byte presented on B is the byte ALIGN reads (30_encoding.md R51). -/
theorem lowByte_setWidth (v : Byte) : lowByte (v.setWidth 32) = v := by
  refine BitVec.eq_of_getLsbD_eq fun j hj => ?_
  rw [lowByte, BitVec.getLsbD_extractLsb', BitVec.getLsbD_setWidth]
  simp [hj, show j < 32 by omega]

/-- A transition on the byte that the buffer reads at the cursor. -/
theorem chunkStep_of_read {s : State} {e : Engine} {v : Byte} (he : s.engine = some e)
    (hv : s.buf.read e.pos = some v) (k : Nat) :
    chunkStep 0 k s = .next { s with engine := some { e with
      crc := transition s.a (alignByte k v) e.crc k, pos := e.pos + 1 } } := by
  obtain ⟨hlt, rfl⟩ := (read_eq_some_iff ..).mp hv
  exact chunkStep_of_lt he k hlt

/-- Settles O31: STEP on ALIGN's result makes the engine's own transition. -/
theorem byteTransitionIsAlignThenStep : Obligations.ByteTransitionIsAlignThenStep := by
  intro k s e v hk hk' he hv
  refine ⟨alignByte k.toNat v, transition s.a (alignByte k.toNat v) e.crc k.toNat, ?_, ?_, ?_⟩
  · rw [exec_align_eq_result hk hk', lowByte_setWidth]
  · exact exec_step_eq_result hk hk' _
  · exact chunkStep_of_read he hv k.toNat

end Sys2Proof.Proofs
end

section
/-! SUPPORT. The CRC commands' results: the closed form of the stream, the empty stream, and the bound of the output width
(41_crc_byte_serial.md R71, R72, R75). -/

namespace Sys2Proof.Proofs

open Sys2Proof Sys2Proof.Machine Sys2Proof.Laws

/-- Settles O20: the initial condition's term is a truncated shift, which from 32 bits on shifts everything out. -/
theorem crcbDeliversTheClosedForm : Obligations.CrcbDeliversTheClosedForm := by
  intro w s hw hw' hn
  refine ⟨exec_crc_eq_result (.inl rfl) hw hw' hn, ?_⟩
  rw [ofNat_initialTerm]
  split
  case isTrue => rfl
  case isFalse h => exact BitVec.shiftLeft_eq_zero (Nat.le_of_not_lt h)

/-- Settles O23: an engine that consumes no bit keeps the initial condition. -/
theorem zeroLengthInputShiftsTheInitialCondition : Obligations.ZeroLengthInputShiftsTheInitialCondition := by
  intro w s hw hw' hn
  have hbits : s.n.toNat = 0 := by rw [hn]; rfl
  have hreg : closedRegister s = s.b := by rw [← registerAfter_n, hbits, registerAfter_zero]
  have hresult {i : Instr} (hi : i = .crcb w ∨ i = .crcw w) := exec_crc_eq_result hi hw hw' (s := s) (by omega)
  rw [hreg] at hresult
  exact ⟨hresult (.inl rfl), hresult (.inr rfl)⟩

/-- A result that a command gives is below the command's bound. -/
theorem resultFits_of_exec {i : Instr} {s t : State} {r : Word} (h : exec i s = .next t)
    (hr : t.response = some (.result r)) : resultFits r i = true := by
  rw [exec_eq_respond] at h
  cases h
  have hr : commandOutcome s i = .result r := Option.some.inj hr
  have hfits := commandOutcome_fits s i
  rwa [hr] at hfits

/-- Settles O24: a number below 2^W has no bit from W on. -/
theorem crcResultsOccupyTheLowWidthBits : Obligations.CrcResultsOccupyTheLowWidthBits := by
  intro w i s t r hi h hr
  have hlt : r.toNat < 2 ^ w.toNat := by
    have hfits := resultFits_of_exec h hr
    obtain rfl | rfl := hi <;> exact of_decide_eq_true hfits
  exact ⟨hlt, fun j hj _ => Nat.testBit_lt_two_pow (hlt.trans_le (Nat.pow_le_pow_right (by decide) hj))⟩

end Sys2Proof.Proofs
end

section
/-! SUPPORT. How the CRCB result varies with the stream: it is linear in the message, it chains over a byte boundary, and
one flipped bit changes it by one shifted copy of the polynomial (41_crc_byte_serial.md R73, R74). -/

namespace Sys2Proof.Proofs

open Sys2Proof Sys2Proof.Machine Sys2Proof.Laws

/-- The message of a XOR of two streams. -/
theorem message_xor {m1 m2 m3 : Memory} {n : Nat}
    (h : ∀ q, q < n → streamBit m3 q = (streamBit m1 q ^^ streamBit m2 q)) :
    message m3 n = message m1 n ^^^ message m2 n := by
  refine Nat.eq_of_testBit_eq fun j => ?_
  rw [Nat.testBit_xor, testBit_message, testBit_message, testBit_message]
  by_cases hj : j < n
  · simp [hj, h (n - 1 - j) (by omega)]
  · simp [hj]

theorem outShift_xor (w : Nat) (x y : Word) : outShift w (x ^^^ y) = outShift w x ^^^ outShift w y :=
  BitVec.ushiftRight_xor_distrib ..

/-- With B = 0 the register is the product of the polynomial and the message alone. -/
theorem closedRegister_of_b_zero {s : State} (hb : s.b = 0#32) (m : Memory) :
    closedRegister { s with buf := m } = gmpy s.a (BitVec.ofNat 32 (message m s.n.toNat)) := by
  simp [closedRegister, hb]

/-- Settles O26: the message, the multiply and the output shift all keep XOR. -/
theorem crcbIsLinearInTheMessage : Obligations.CrcbIsLinearInTheMessage := by
  intro w s m1 m2 m3 hw hw' hb h1 h2 h3 hq
  have hreg : closedRegister { s with buf := m3 } =
      closedRegister { s with buf := m1 } ^^^ closedRegister { s with buf := m2 } := by
    rw [closedRegister_of_b_zero hb, closedRegister_of_b_zero hb, closedRegister_of_b_zero hb, ← gmpy_xor_right,
      ← BitVec.ofNat_xor, ← message_xor hq]
  refine ⟨_, _, exec_crc_eq_result (.inl rfl) hw hw' h1, exec_crc_eq_result (.inl rfl) hw hw' h2, ?_⟩
  rw [← outShift_xor, ← hreg]
  exact exec_crc_eq_result (.inl rfl) hw hw' h3

/-- A message goes on with the message of the stream that follows. -/
theorem message_add {m m' : Memory} {p n : Nat} (h : ∀ q, q < n → streamBit m (p + q) = streamBit m' q) :
    message m (p + n) = 2 ^ n * message m p + message m' n := by
  induction n with
  | zero => simp [message_zero]
  | succ n ih =>
    rw [← Nat.add_assoc, message_succ, message_succ, ih fun q hq => h q (by omega), h n n.lt_succ_self]
    ring

/-- Equal streams have equal messages. -/
theorem message_congr {m m' : Memory} {n : Nat} (h : ∀ q, q < n → streamBit m q = streamBit m' q) :
    message m n = message m' n := by
  simpa [message_zero] using message_add (p := 0) (by simpa using h)

theorem read_ofBytes (bytes : List Byte) (i : Nat) : (Memory.ofBytes bytes).read i = bytes[i]? :=
  bufferOfAByteListReadsTheList bytes i

/-- The stream of two byte lists in a row begins with that of the first. -/
theorem streamBit_append_left (xs ys : List Byte) {q : Nat} (hq : q < 8 * xs.length) :
    streamBit (Memory.ofBytes (xs ++ ys)) q = streamBit (Memory.ofBytes xs) q := by
  rw [streamBit, streamBit, read_ofBytes, read_ofBytes, List.getElem?_append_left (by omega)]

/-- After the first list's bits comes the stream of the second. -/
theorem streamBit_append_right (xs ys : List Byte) (q : Nat) :
    streamBit (Memory.ofBytes (xs ++ ys)) (8 * xs.length + q) = streamBit (Memory.ofBytes ys) q := by
  have hindex : (8 * xs.length + q) / 8 - xs.length = q / 8 := by omega
  have hbit : (8 * xs.length + q) % 8 = q % 8 := by omega
  rw [streamBit, streamBit, read_ofBytes, read_ofBytes, List.getElem?_append_right (by omega), hindex, hbit]

theorem message_append (xs ys : List Byte) (n : Nat) :
    message (Memory.ofBytes (xs ++ ys)) (8 * xs.length + n) =
      2 ^ n * message (Memory.ofBytes xs) (8 * xs.length) + message (Memory.ofBytes ys) n := by
  rw [message_add fun q _ => streamBit_append_right xs ys q, message_congr fun q hq => streamBit_append_left xs ys hq]

/-- The register over two byte lists in a row is that over the second, started from that over the first. -/
theorem registerAfter_append (s : State) (xs ys : List Byte) (n : Nat) :
    registerAfter { s with buf := Memory.ofBytes (xs ++ ys) } (8 * xs.length + n) =
      registerAfter { s with
        b := registerAfter { s with buf := Memory.ofBytes xs } (8 * xs.length), buf := Memory.ofBytes ys } n := by
  simp only [registerAfter, ofNat_initialTerm, message_append, ofNat_two_pow_mul_add (message_lt ..), gmpy_xor_right,
    gmpy_shiftLeft_right, BitVec.shiftLeft_add, BitVec.shiftLeft_xor_distrib, BitVec.xor_assoc]

/-- CRCB over the first `n` bits of a buffer delivers the register after `n` bits, shifted to its width. -/
theorem exec_crcb_first_bits {w : BitVec 6} (hw : 1 ≤ w.toNat) (hw' : w.toNat ≤ 32) (s : State) {m : Memory} {n : Nat}
    (hn : n < 2 ^ 32) (hlen : n ≤ 8 * m.len) :
    exec (.crcb w) { s with n := BitVec.ofNat 32 n, buf := m } = .next { s with
      n := BitVec.ofNat 32 n, buf := m, inFlight := false, engine := none,
      response := some (.result (outShift w.toNat (registerAfter { s with buf := m } n))) } := by
  have hbits : (BitVec.ofNat 32 n).toNat = n := Nat.mod_eq_of_lt hn
  have hreg : closedRegister { s with n := BitVec.ofNat 32 n, buf := m } = registerAfter { s with buf := m } n := by
    rw [← registerAfter_n, hbits]
    rfl
  rw [exec_crc_eq_result (.inl rfl) hw hw' (by rwa [hbits]), hreg]

theorem outShift_thirtyTwo (x : Word) : outShift 32 x = x :=
  BitVec.ushiftRight_zero x

/-- Settles O27: at W = 32 the result is the register itself, from which the second command goes on. -/
theorem crcbChainsOverAByteBoundary : Obligations.CrcbChainsOverAByteBoundary := by
  intro w s xs ys n2 hw hw' hbits hys
  have hlen : 8 * xs.length + n2 ≤ 8 * (Memory.ofBytes (xs ++ ys)).len := by
    rw [ofBytes_len, List.length_append]
    omega
  refine ⟨registerAfter { s with buf := Memory.ofBytes xs } (8 * xs.length), _, ?first,
    exec_crcb_first_bits hw hw' { s with b := registerAfter { s with buf := Memory.ofBytes xs } (8 * xs.length) }
      (n := n2) (by omega) hys, ?whole⟩
  case first =>
    have hfirst := exec_crcb_first_bits (w := 32#6) (by decide) (by decide) s (m := Memory.ofBytes xs)
      (n := 8 * xs.length) (by omega) le_rfl
    rwa [show (32#6 : BitVec 6).toNat = 32 from rfl, outShift_thirtyTwo] at hfirst
  case whole =>
    rw [exec_crcb_first_bits hw hw' s hbits hlen, registerAfter_append]

/-- Flipping the stream bit `d` places before the last flips the message's bit `d`. -/
theorem message_flip {m m' : Memory} {n p d : Nat} (hpd : p + d + 1 = n)
    (h : ∀ q, q < n → streamBit m' q = (streamBit m q ^^ decide (q = p))) :
    message m' n = message m n ^^^ 2 ^ d := by
  refine Nat.eq_of_testBit_eq fun j => ?_
  rw [Nat.testBit_xor, testBit_message, testBit_message, Nat.testBit_two_pow]
  by_cases hj : j < n
  · have hplace : n - 1 - j = p ↔ d = j := by omega
    simp [hj, h (n - 1 - j) (by omega), hplace]
  · simp [hj, show d ≠ j by omega]

/-- Flipping a stream bit adds a shifted copy of the polynomial to the register (R74). -/
theorem closedRegister_flip {s s' : State} {p d : Nat} (ha : s'.a = s.a) (hb : s'.b = s.b) (hn : s'.n = s.n)
    (hpd : p + d + 1 = s.n.toNat)
    (hq : ∀ q, q < s.n.toNat → streamBit s'.buf q = (streamBit s.buf q ^^ decide (q = p))) :
    closedRegister s' = closedRegister s ^^^ s.a <<< d := by
  have hflip : BitVec.ofNat 32 (2 ^ d) = 1#32 <<< d := by simpa using ofNat_mul_two_pow 1 d
  rw [closedRegister, closedRegister, ha, hb, hn, message_flip hpd hq, BitVec.ofNat_xor, gmpy_xor_right, hflip,
    gmpy_one_shiftLeft, BitVec.xor_assoc]

/-- A change of `y` in a register is a change of the bits of `y` that the output shift keeps. -/
theorem outShift_xor_outShift_of_change (w : Nat) (x y : Word) :
    outShift w x ^^^ outShift w (x ^^^ y) = outShift w y := by
  rw [← outShift_xor, ← BitVec.xor_assoc, BitVec.xor_self, BitVec.zero_xor]

/-- The output shift keeps the bits from 32 - W on. -/
theorem outShift_ne_zero_iff (w : Nat) (x : Word) :
    outShift w x ≠ 0#32 ↔ ∃ i, 32 ≤ i + w ∧ x.getLsbD i = true := by
  constructor
  · intro h
    have hlowest := BitVec.getLsbD_true_ctz_of_ne_zero h
    rw [outShift, BitVec.getLsbD_ushiftRight] at hlowest
    exact ⟨_, by omega, hlowest⟩
  · rintro ⟨i, hi, hbit⟩ hzero
    have hkept : (outShift w x).getLsbD (i - (32 - w)) = true := by
      rw [outShift, BitVec.getLsbD_ushiftRight, show 32 - w + (i - (32 - w)) = i by omega, hbit]
    rw [hzero, BitVec.getLsbD_zero] at hkept
    cases hkept

/-- Which bits of the polynomial, moved up by `d`, the output shift keeps. -/
theorem outShift_shiftLeft_ne_zero_iff (w d : Nat) (a : Word) :
    outShift w (a <<< d) ≠ 0#32 ↔ ∃ j, 32 ≤ j + w + d ∧ j + d ≤ 31 ∧ a.getLsbD j = true := by
  rw [outShift_ne_zero_iff]
  constructor
  · rintro ⟨i, hi, hbit⟩
    rw [BitVec.getLsbD_shiftLeft] at hbit
    simp only [Bool.and_eq_true, Bool.not_eq_true', decide_eq_true_eq, decide_eq_false_iff_not] at hbit
    obtain ⟨⟨hi32, hdi⟩, ha⟩ := hbit
    exact ⟨i - d, by omega, by omega, ha⟩
  · rintro ⟨j, hw, hj, ha⟩
    refine ⟨j + d, by omega, ?_⟩
    simp [show j + d < 32 by omega, ha]

/-- The CRC-8 polynomial's lowest set bit is bit 24. -/
theorem getLsbD_crc8_of_lt : ∀ j, j < 24 → (0x9B000000#32).getLsbD j = false := by
  decide

/-- R74's example: with the CRC-8 polynomial at W = 8, the last eight stream bits are the ones that reach the result. -/
theorem crc8_bit_reaches_iff (d : Nat) :
    (∃ j, 32 ≤ j + 8 + d ∧ j + d ≤ 31 ∧ (0x9B000000#32).getLsbD j = true) ↔ d ≤ 7 := by
  constructor
  · rintro ⟨j, -, hj, hbit⟩
    by_contra hd
    rw [getLsbD_crc8_of_lt j (by omega)] at hbit
    cases hbit
  · intro hd
    exact ⟨24, by omega, by omega, by decide⟩

/-- Settles O28: the results differ by what the output shift keeps of the change in the register. -/
theorem singleBitFlipHasTheExactEffect : Obligations.SingleBitFlipHasTheExactEffect := by
  intro w s s' p d hw hw' ha hb hn hlen hlen' hpd hq
  have hreg : closedRegister s' = closedRegister s ^^^ s.a <<< d := closedRegister_flip ha hb hn hpd hq
  have hchange : outShift w.toNat (closedRegister s) ^^^ outShift w.toNat (closedRegister s') =
      outShift w.toNat (s.a <<< d) := by
    rw [hreg, outShift_xor_outShift_of_change]
  have hne : outShift w.toNat (closedRegister s) ≠ outShift w.toNat (closedRegister s') ↔
      ∃ j, 32 ≤ j + w.toNat + d ∧ j + d ≤ 31 ∧ s.a.getLsbD j = true := by
    rw [← outShift_shiftLeft_ne_zero_iff, ← hchange, ne_eq, ne_eq, BitVec.xor_eq_zero_iff]
  refine ⟨_, _, exec_crc_eq_result (.inl rfl) hw hw' hlen, exec_crc_eq_result (.inl rfl) hw hw' (by rwa [hn]),
    fun _ => hchange, fun hd => ?shiftedOut, hne.trans ⟨?seen, And.right⟩, fun hpoly hwidth => ?crc8⟩
  case shiftedOut => rw [hreg, BitVec.shiftLeft_eq_zero hd, BitVec.xor_zero]
  case seen =>
    rintro ⟨j, hwidth, hplace, hbit⟩
    exact ⟨by omega, j, hwidth, hplace, hbit⟩
  case crc8 =>
    rw [hne, hpoly, hwidth]
    exact crc8_bit_reaches_iff d

end Sys2Proof.Proofs
end

section
/-! SUPPORT. STEP16: the bytes of its unit as values, and its full-word transition on them as shifts, and as two byte
transitions (30_encoding.md R51, 42_crc_word_serial.md R81). -/

namespace Sys2Proof.Proofs

open Sys2Proof Sys2Proof.Machine Sys2Proof.Laws

/-- B[7:0] as a value (30_encoding.md R51). -/
theorem lowByte_value (x : Word) : (lowByte x).setWidth 32 = x &&& 0xFF#32 := by
  have hmask : fieldMask 0 8 = 0xFF#32 := by decide
  rw [← hmask, and_fieldMask, BitVec.shiftLeft_zero, lowByte]

/-- B[15:8] is the low byte of the word shifted down by one byte. -/
theorem highByte_eq_lowByte_shifted (x : Word) : highByte x = lowByte (x >>> 8) := by
  refine BitVec.eq_of_getLsbD_eq fun j hj => ?_
  simp [highByte, lowByte, hj]

/-- B[15:8] as a value (30_encoding.md R51). -/
theorem highByte_value (x : Word) : (highByte x).setWidth 32 = x >>> 8 &&& 0xFF#32 := by
  rw [highByte_eq_lowByte_shifted, lowByte_value]

/-- The full-word transition in the terms of R81. -/
theorem wordTransition_eq (poly crc x : Word) :
    wordTransition poly (scaleByEight poly) crc (lowByte x) (highByte x) =
      gmpy (poly <<< 8) (x &&& 0xFF#32) ^^^ gmpy poly (x >>> 8 &&& 0xFF#32) ^^^ crc <<< 16 := by
  rw [wordTransition, lowByte_value, highByte_value, scaleByEight_eq_shiftLeft, fold_eq_shiftLeft, fold_eq_shiftLeft,
    ← BitVec.shiftLeft_add]

theorem exec_step16_eq_result (s : State) :
    exec .step16 s = .next { s with
      inFlight := false, engine := none, response := some (.result
        (wordTransition s.a (scaleByEight s.a) s.c (lowByte s.b) (highByte s.b))) } :=
  exec_eq_respond .step16 s

/-- Settles O17: the full-word transition is two byte transitions on the unit's bytes, the low byte first. -/
theorem step16IsTwoByteSteps : Obligations.Step16IsTwoByteSteps := by
  intro s
  refine ⟨_, _, exec_step_eq_result (by decide) (by decide) _, exec_step_eq_result (by decide) (by decide) _, ?_⟩
  rw [exec_step16_eq_result, wordTransition_eq_two_transitions, alignByte_eight, alignByte_eight, lowByte_value,
    highByte_value]
  rfl

/-- Settles O16: `scale8` is a shift by 8, and the two folds by 8 are one by 16. -/
theorem step16DeliversTheWordTransition : Obligations.Step16DeliversTheWordTransition := by
  intro s
  rw [exec_step16_eq_result, wordTransition_eq]

end Sys2Proof.Proofs
end

section
/-! SUPPORT. CRCW beside CRCB, and the word engine with the tail offset that the spec does not adopt
(42_crc_word_serial.md R78, R83 to R89). -/

namespace Sys2Proof.Proofs

open Sys2Proof Sys2Proof.Machine Sys2Proof.Laws

/-- Settles O21: CRCW's engine ends in the same closed register as CRCB's. -/
theorem crcwDeliversTheClosedForm : Obligations.CrcwDeliversTheClosedForm :=
  fun _ _ hw hw' hn => exec_crc_eq_result (.inr rfl) hw hw' hn

/-- Settles O22: both commands answer `crcOutcome`, faults included. -/
theorem crcwAndCrcbGiveTheSameOutcome : Obligations.CrcwAndCrcbGiveTheSameOutcome := by
  intro w s
  calc exec (.crcw w) s = .next (respond (crcOutcome w s) s) := exec_eq_respond (.crcw w) s
    _ = exec (.crcb w) s := (exec_eq_respond (.crcb w) s).symm

/-- The word engine comes to its tail with its full words consumed, whatever the tail's offset (R82). -/
theorem runWordEngine_eq_wordTail {s : State} (hn : s.n.toNat ≤ 8 * s.buf.len) (tailB : Nat) :
    runWordEngine tailB s = wordTail tailB (consumed s (some (scaleByEight s.a)) (8 * (2 * fullWords s.n))) := by
  have hwords : 2 * fullWords s.n ≤ s.buf.len := by unfold fullWords; omega
  rw [runWordEngine, startWordEngine_eq_consumed, repeatStep_wordStep_consumed hwords, andThen_next]

/-- Tail case B is the partial byte alone: fewer than eight bits are left after the full words (R83, R85). -/
theorem wordTail_eq_partialStep {s : State} (htail : s.n.toNat % 16 ≤ 7) (tailB : Nat) :
    wordTail tailB s = partialStep tailB s := by
  have heven : hasExtraByte s.n = false := beq_eq_false_iff_ne.mpr (by omega)
  simp [wordTail, heven]

/-- A partial-byte transition whose byte lies beyond the buffer stops. -/
theorem partialStep_of_le {s : State} {e : Engine} (he : s.engine = some e) {skip : Nat} (hbits : 0 < leftoverBits s.n)
    (hbeyond : s.buf.len ≤ e.pos + skip) : partialStep skip s = .fault (.readBeyondBuffer (e.pos + skip)) := by
  rw [partialStep, if_pos hbits, chunkStep_of_le he _ hbeyond]

/-- Settles O30: after the full words, tail case B reads the byte after its own. -/
theorem theOtherTailOffsetStopsBeyondTheBuffer : Obligations.TheOtherTailOffsetStopsBeyondTheBuffer := by
  intro s hn hpos htail hlen
  have hbits : 0 < leftoverBits s.n := by unfold leftoverBits; omega
  have hcursor : (8 * (2 * fullWords s.n) + 7) / 8 = 2 * fullWords s.n := by omega
  have hbeyond : s.buf.len ≤ (8 * (2 * fullWords s.n) + 7) / 8 + 1 := by rw [hcursor]; exact hlen
  rw [runWordEngine_eq_wordTail hn, wordTail_eq_partialStep, partialStep_of_le (consumed_engine ..) hbits hbeyond,
    hcursor, fullWords]
  exact htail

end Sys2Proof.Proofs
end

section
/-! SUPPORT. The bit alignment helpers: the slices that ALIGN and OSHIFT take as quotients, and the engines' split of N as
the split of its bit fields (43_bit_alignment_helpers.md R90 to R92). -/

namespace Sys2Proof.Proofs

open Sys2Proof Sys2Proof.Machine Sys2Proof.Laws

theorem widthOk_of_range {w : BitVec 6} (hw : 1 ≤ w.toNat) (hw' : w.toNat ≤ 32) : widthOk w = true :=
  decide_eq_true ⟨hw, hw'⟩

theorem exec_oshift_eq_result {w : BitVec 6} (hw : 1 ≤ w.toNat) (hw' : w.toNat ≤ 32) (s : State) :
    exec (.oshift w) s = .next { s with
      inFlight := false, engine := none, response := some (.result (outShift w.toNat s.a)) } := by
  rw [exec_eq_respond, commandOutcome, widthOk_of_range hw hw']
  rfl

theorem lowByte_toNat (x : Word) : (lowByte x).toNat = x.toNat % 256 := by
  rw [lowByte, BitVec.extractLsb'_toNat, Nat.shiftRight_zero]

/-- ALIGN's slice as a quotient of the byte on B (R90). -/
theorem alignByte_lowByte_eq_ofNat (k : Nat) (x : Word) :
    alignByte k (lowByte x) = BitVec.ofNat 32 (x.toNat % 256 / 2 ^ (8 - k)) := by
  rw [← lowByte_toNat, ← alignByte_toNat, BitVec.ofNat_toNat, BitVec.setWidth_eq]

/-- OSHIFT's slice as a quotient of A: the shift is logical (R91, 90_conflicts.md C2). -/
theorem outShift_eq_ofNat (w : Nat) (x : Word) : outShift w x = BitVec.ofNat 32 (x.toNat / 2 ^ (32 - w)) := by
  rw [outShift, ← Nat.shiftRight_eq_div_pow, ← BitVec.toNat_ushiftRight, BitVec.ofNat_toNat, BitVec.setWidth_eq]

/-- Settles O18: the aligned low byte of B is a quotient. -/
theorem alignDeliversTheTopBits : Obligations.AlignDeliversTheTopBits := by
  intro k s hk hk'
  rw [exec_align_eq_result hk hk', alignByte_lowByte_eq_ofNat]

/-- Settles O19: the output shift of A is a quotient. -/
theorem oshiftDeliversTheTopBits : Obligations.OshiftDeliversTheTopBits := by
  intro w s hw hw'
  rw [exec_oshift_eq_result hw hw', outShift_eq_ofNat]

/-- The bits of N from `lo` up to its top bit are a quotient. -/
theorem extractLsb'_toNat_of_top (n : Word) {lo len : Nat} (htop : lo + len = 32) :
    (n.extractLsb' lo len).toNat = n.toNat / 2 ^ lo := by
  have hlt : n.toNat / 2 ^ lo < 2 ^ len := by
    rw [Nat.div_lt_iff_lt_mul (Nat.two_pow_pos _), ← Nat.pow_add, Nat.add_comm, htop]
    exact n.isLt
  rw [BitVec.extractLsb'_toNat, Nat.shiftRight_eq_div_pow, Nat.mod_eq_of_lt hlt]

theorem fullBytes_eq_field (n : Word) : fullBytes n = (n.extractLsb' 3 29).toNat :=
  (extractLsb'_toNat_of_top n (lo := 3) (len := 29) rfl).symm

theorem fullWords_eq_field (n : Word) : fullWords n = (n.extractLsb' 4 28).toNat :=
  (extractLsb'_toNat_of_top n (lo := 4) (len := 28) rfl).symm

theorem leftoverBits_eq_field (n : Word) : leftoverBits n = (n.extractLsb' 0 3).toNat := by
  rw [leftoverBits, BitVec.extractLsb'_toNat, Nat.shiftRight_zero]

theorem hasExtraByte_eq_bit (n : Word) : hasExtraByte n = n.getLsbD 3 := by
  rw [BitVec.getLsbD, Nat.testBit_eq_decide_div_mod_eq]
  rfl

/-- The bytes that hold the stream are the full ones, and one more for the bits left over (R92). -/
theorem streamBytes_eq_fullBytes_and_partial (n : Word) :
    streamBytes n = fullBytes n + if 0 < leftoverBits n then 1 else 0 := by
  have hsplit := bits_eq_bytes_and_rest n
  have hlt := leftoverBits_lt n
  unfold streamBytes
  split <;> omega

/-- Settles O33: the quotients and remainders of N by powers of two are its bit fields. -/
theorem bitCountSplitsIntoItsFields : Obligations.BitCountSplitsIntoItsFields := fun n =>
  ⟨fullBytes_eq_field n, leftoverBits_eq_field n, fullWords_eq_field n, hasExtraByte_eq_bit n,
    fullBytes_eq_words_and_extra n, streamBytes_eq_fullBytes_and_partial n⟩

end Sys2Proof.Proofs
end

section
/-! SUPPORT. Which fault a transaction ends with: the illegal fields of a decoded command, and the order of the faults
(60_exceptions.md R96 to R98). -/

namespace Sys2Proof.Proofs

open Sys2Proof Sys2Proof.Machine

theorem widthOk_eq_false_iff (w : BitVec 6) : widthOk w = false ↔ w.toNat < 1 ∨ 32 < w.toNat := by
  rw [widthOk, decide_eq_false_iff_not]
  omega

theorem chunkOk_eq_false_iff (k : BitVec 4) : chunkOk k = false ↔ k.toNat < 1 ∨ 8 < k.toNat := by
  rw [chunkOk, decide_eq_false_iff_not]
  omega

theorem bitCountOk_eq_false_iff (s : State) : bitCountOk s = false ↔ 8 * s.buf.len < s.n.toNat := by
  rw [bitCountOk, decide_eq_false_iff_not, Nat.not_le]

theorem crcOutcome_of_badWidth {w : BitVec 6} (hw : widthOk w = false) (s : State) :
    crcOutcome w s = .fault .badWidth :=
  if_pos hw

theorem crcOutcome_of_badBitCount {w : BitVec 6} {s : State} (hw : widthOk w = true) (hn : bitCountOk s = false) :
    crcOutcome w s = .fault .badBitCount := by
  simp [crcOutcome, hw, hn]

/-- A command whose outcome is a fault ends with it, and changes nothing else (R96). -/
theorem exec_eq_fault {i : Instr} {s : State} {code : FaultCode} (h : commandOutcome s i = .fault code) :
    exec i s = .next { s with inFlight := false, engine := none, response := some (.fault code) } := by
  rw [exec_eq_respond, h]
  rfl

/-- Settles O34: an illegal field, or a bit count beyond the buffer, makes the outcome of each command a fault. -/
theorem illegalFieldsFault : Obligations.IllegalFieldsFault := by
  refine ⟨fun w s hw => ?_, fun k s hk => ?_, fun w s hw hw' hn => ?_⟩
  · have hbad := (widthOk_eq_false_iff w).mpr hw
    have hcrc := crcOutcome_of_badWidth hbad s
    exact ⟨exec_eq_fault hcrc, exec_eq_fault hcrc, exec_eq_fault (if_pos hbad)⟩
  · have hbad := (chunkOk_eq_false_iff k).mpr hk
    exact ⟨exec_eq_fault (if_pos hbad), exec_eq_fault (if_pos hbad)⟩
  · have hcrc := crcOutcome_of_badBitCount (widthOk_of_range hw hw') ((bitCountOk_eq_false_iff s).mpr hn)
    exact ⟨exec_eq_fault hcrc, exec_eq_fault hcrc⟩

/-- The fault code of an outcome, where it is a fault. -/
def faultOf : Response → Option FaultCode
  | .result _ => none
  | .fault code => some code

@[simp] theorem faultOf_result (r : Word) : faultOf (.result r) = none := rfl
@[simp] theorem faultOf_fault (code : FaultCode) : faultOf (.fault code) = some code := rfl

/-- The faults of R97 that a word of the opcode map can still raise, in the order of R98: those of its fields `w` and `k`,
then that of the bit count. -/
def executionFault (s : State) (op : BitVec 4) (w : BitVec 6) (k : BitVec 4) : Option FaultCode :=
  if (op.toNat = 1 ∨ op.toNat = 2 ∨ op.toNat = 6) ∧ widthOk w = false then some .badWidth
  else if (op.toNat = 3 ∨ op.toNat = 5) ∧ chunkOk k = false then some .badChunk
  else if (op.toNat = 1 ∨ op.toNat = 2) ∧ bitCountOk s = false then some .badBitCount
  else none

/-- The order of R98 in the decoder's terms: the operation, then its row's mask, then the faults of execution. -/
theorem firstFault_eq (s : State) : firstFault s =
    if 7 ≤ (opField s.cmd).toNat then some .illegalOp
    else if s.cmd &&& tableMask (opField s.cmd).toNat ≠ (opField s.cmd).setWidth 32 then some .reservedField
    else executionFault s (opField s.cmd) (widthField s.cmd) (chunkField s.cmd) := by
  simp only [executionFault, widthOk_eq_false_iff, chunkOk_eq_false_iff, bitCountOk_eq_false_iff,
    ← BitVec.ofNat_toNat]
  rfl

/-- The decoder rejects a word of the opcode map exactly where it does not match its row under the mask (R50, R52). -/
theorem decode_eq_reservedField_iff (cmd : Word) : decode cmd = .reservedField ↔
    (opField cmd).toNat < 7 ∧ cmd &&& tableMask (opField cmd).toNat ≠ (opField cmd).setWidth 32 := by
  cases hrow : opcodeRow (opField cmd) (widthField cmd) (chunkField cmd) with
  | none =>
    have hop := (opcodeRow_eq_none_iff ..).mp hrow
    simp [decode_of_no_row hrow, Nat.not_lt.mpr hop]
  | some row =>
    obtain ⟨hop, hmask, -⟩ := (opcodeRow_eq_some_iff ..).mp hrow
    have hlt := opcode_lt row.2
    rw [← hop] at hmask hlt
    rw [decode_of_row hrow, hmask]
    split
    case isTrue h => simp [h]
    case isFalse h => simp [h, hlt]

/-- A decoded command's outcome carries the execution fault of its operation and fields, where there is one. -/
theorem executionFault_of_hasFields {s : State} {w : BitVec 6} {k : BitVec 4} {i : Instr} (h : hasFields w k i) :
    executionFault s (opcode i) w k = faultOf (commandOutcome s i) := by
  cases i with
  | gmpy | step16 => rfl
  | crcb _ | crcw _ =>
    cases h
    simp [executionFault, opcode, commandOutcome, crcOutcome, apply_ite faultOf]
  | step _ | align _ | oshift _ =>
    cases h
    simp [executionFault, opcode, commandOutcome, apply_ite faultOf]

/-- The first fault that applies is the one in the outcome of the transaction, and none applies where it is a result. -/
theorem firstFault_eq_faultOf_decodedOutcome (s : State) :
    firstFault s = faultOf (decodedOutcome s (decode s.cmd)) := by
  rw [firstFault_eq]
  cases hd : decode s.cmd with
  | illegalOp => exact if_pos ((decode_eq_illegalOp_iff s.cmd).mp hd)
  | reservedField =>
    obtain ⟨hop, hmismatch⟩ := (decode_eq_reservedField_iff s.cmd).mp hd
    rw [if_neg (Nat.not_le.mpr hop), if_pos hmismatch]
    rfl
  | instr i =>
    obtain ⟨hmatch, hfields⟩ := (decode_eq_instr_iff_matchesRow s.cmd i).mp hd
    rw [opField_of_match hmatch, if_neg (Nat.not_le.mpr (opcode_lt i)), if_neg (not_not.mpr hmatch)]
    exact executionFault_of_hasFields hfields

/-- Settles O11: a step in flight ends with the outcome of its transaction, which carries the first fault or is a
result. -/
theorem firstApplicableFaultIsReported : Obligations.FirstApplicableFaultIsReported := by
  intro s hf
  rw [step_eq_respond hf, firstFault_eq_faultOf_decodedOutcome]
  cases decodedOutcome s (decode s.cmd) with
  | result r => exact ⟨nofun, fun _ => ⟨r, rfl⟩⟩
  | fault code => exact ⟨fun _ h => by cases h; rfl, nofun⟩

end Sys2Proof.Proofs
end

section
/-! The transaction in flight at a reset, and the one after it (70_reset_and_hazards.md R109, R110). -/

namespace Sys2Proof.Proofs

open Sys2Proof Sys2Proof.Machine Sys2Proof.Laws

/-- A reset clears nothing that issuing a transaction does not clear too, and it keeps the presented inputs. -/
@[simp] theorem issue_resetBlock (s : State) : issue (resetBlock s) = issue s := rfl

/-- Settles O42: the reset state has nothing in flight, so a step is idle, and issuing forgets the reset. -/
theorem resetAbandonsTheTransaction : Obligations.ResetAbandonsTheTransaction := by
  intro s
  have hidle : step (resetBlock s) = .next (resetBlock s) := step_of_idle (resetBlock_inFlight s)
  have hnext : step (issue (resetBlock s)) = step (issue s) := congrArg step (issue_resetBlock s)
  exact ⟨resetBlock_inFlight s, resetBlock_engine s, resetBlock_response s, hidle, hnext⟩

end Sys2Proof.Proofs
end

section
/-! SUPPORT. The canonical form of the buffer is unique (log entry 5), and the idle step (log entry 4). -/

namespace Sys2Proof.Proofs

open Sys2Proof Sys2Proof.Machine Sys2Proof.Laws

/-- Settles O9: the equation of `step` where nothing is in flight. -/
theorem idleStepChangesNothing : Obligations.IdleStepChangesNothing :=
  fun _ hidle => step_of_idle hidle

@[simp] theorem lookupCell_head (i : Nat) (v : Byte) (rest : List Host.Cell) : lookupCell i ((i, v) :: rest) = v :=
  if_pos rfl

/-- A canonical list that holds a byte other than 0 at an index lists its first byte no later. -/
theorem head_le_of_lookupCell_ne_zero {len lo i x : Nat} {v : Byte} {rest : List Host.Cell}
    (hc : cellsWf len lo ((i, v) :: rest) = true) (hx : lookupCell x ((i, v) :: rest) ≠ 0#8) : i ≤ x := by
  obtain ⟨-, hlisted⟩ := (cellsWf_cons ..).mp hc
  by_contra hlt
  exact hx (lookupCell_of_lt (Nat.lt_of_not_le hlt) ((cellsWf_cons ..).mpr ⟨le_rfl, hlisted⟩))

/-- The byte listed first stands out from the rest, which holds 0 at its index: lists with one head that hold the same
bytes have rests that do. -/
theorem lookupCell_rest_eq {len i x : Nat} {v : Byte} {rest rest' : List Host.Cell}
    (hrest : cellsWf len (i + 1) rest = true) (hrest' : cellsWf len (i + 1) rest' = true)
    (h : lookupCell x ((i, v) :: rest') = lookupCell x ((i, v) :: rest)) :
    lookupCell x rest' = lookupCell x rest := by
  by_cases hx : i = x
  · subst hx
    rw [lookupCell_of_lt (Nat.lt_succ_self i) hrest, lookupCell_of_lt (Nat.lt_succ_self i) hrest']
  · rwa [lookupCell_cons, lookupCell_cons, if_neg hx, if_neg hx] at h

/-- Canonical lists that hold the same bytes below LEN are equal: each head is no later than the other. -/
theorem cells_eq_of_lookupCell_eq {len lo lo' : Nat} {cells cells' : List Host.Cell}
    (hc : cellsWf len lo cells = true) (hc' : cellsWf len lo' cells' = true)
    (h : ∀ x, x < len → lookupCell x cells' = lookupCell x cells) : cells' = cells := by
  induction cells generalizing lo lo' cells' with
  | nil =>
    cases cells' with
    | nil => rfl
    | cons c' rest' =>
      obtain ⟨j, u⟩ := c'
      obtain ⟨-, hj, hu, -⟩ := (cellsWf_cons ..).mp hc'
      exact absurd ((lookupCell_head j u rest').symm.trans (h j hj)) hu
  | cons c rest ih =>
    obtain ⟨i, v⟩ := c
    obtain ⟨-, hi, hv, hrest⟩ := (cellsWf_cons ..).mp hc
    have hheld : lookupCell i cells' = v := (h i hi).trans (lookupCell_head ..)
    cases cells' with
    | nil => exact absurd hheld.symm hv
    | cons c' rest' =>
      obtain ⟨j, u⟩ := c'
      obtain ⟨-, hj, hu, hrest'⟩ := (cellsWf_cons ..).mp hc'
      have hheld' : lookupCell j ((i, v) :: rest) = u := (h j hj).symm.trans (lookupCell_head ..)
      have hij : i = j :=
        Nat.le_antisymm (head_le_of_lookupCell_ne_zero hc (hheld'.trans_ne hu))
          (head_le_of_lookupCell_ne_zero hc' (hheld.trans_ne hv))
      subst hij
      obtain rfl : u = v := (lookupCell_head ..).symm.trans hheld
      rw [ih hrest hrest' fun x hx => lookupCell_rest_eq hrest hrest' (h x hx)]

/-- Settles O45: reads below LEN give the listed bytes, which determine the canonical list. -/
theorem canonicalBuffersThatReadAlikeAreEqual : Obligations.CanonicalBuffersThatReadAlikeAreEqual := by
  rintro ⟨len, cells⟩ ⟨len', cells'⟩ hwf hwf' hlen hread
  obtain rfl : len' = len := hlen
  have hcells : cells' = cells := cells_eq_of_lookupCell_eq hwf hwf' fun x hx =>
    ((read_eq_some_iff ..).mp ((hread x).trans (read_of_lt hx))).2
  rw [hcells]

end Sys2Proof.Proofs
end
